-- ==== Sys2Proof/Word.lean ====
section
/-! DEFINITION. The widths of the core's values (`00_scope.md` R5, R6, R7): every value is an unsigned bit vector
of a stated width, and arithmetic on it wraps (R8, R50). -/

namespace Sys2Proof

/-- A payload or entropy byte (`20_memory.md` R22, R26). -/
abbrev Byte := BitVec 8

/-- A command word, W_CMD = 32 bits (`00_scope.md` R6). -/
abbrev CmdWord := BitVec 32

/-- The LEN field, W_LEN = 24 bits (`00_scope.md` R6, `30_encoding.md` R33). -/
abbrev Len := BitVec 24

/-- A generator half, a generator output or RESP_DATA: W_OUT = W_DATA = 64 bits (`00_scope.md` R5, R6). -/
abbrev U64 := BitVec 64

/-- STATE and INC: W_STATE = W_INC = 128 bits (`00_scope.md` R5). -/
abbrev U128 := BitVec 128

end Sys2Proof
end

