-- ==== Sys2Proof/Config.lean ====
section
/-! DEFINITION. The interface parameters of `00_scope.md` R6 that are not widths of a type of Word.lean. The
algorithm's constants (R5) stand in Machine/Constants.lean. The spec leaves no value free for an implementation to
choose: its free draws are the entropy answers (R59, R79), which are inputs of the machine. -/

namespace Sys2Proof.Config

/-- ENT_REQ: the bytes the core takes from the entropy source per SEED_ENTROPY (`00_scope.md` R6,
`60_exceptions.md` R79). -/
abbrev ENT_REQ : Nat := 32

end Sys2Proof.Config
end

