-- ==== Sys2Proof/Syntax.lean ====
section
/-! DEFINITION. The commands of the core: one constructor per row of `opcode_table.json` (`30_encoding.md` R36). A
word that is none of them is ILLEGAL (R37, R38); that is an answer of the decoder, not a command. -/

namespace Sys2Proof

/-- A command (`30_encoding.md` R36). SEED_BYTES carries the LEN field of its word and the bytes that came for it on
the payload channel (R33, R34); no other command has an operand. -/
inductive Instr where
  /-- SEED_BYTES (`41_seeding.md` R53): LEN and the payload bytes, seed[0] first. -/
  | seedBytes (len : Len) (payload : List Byte)
  /-- SEED_ENTROPY (`41_seeding.md` R58). -/
  | seedEntropy
  /-- NEXT_U64 (`42_output.md` R61). -/
  | nextU64
  /-- NEXT_F64 (`42_output.md` R62). -/
  | nextF64
  /-- GETSTATE (`43_control.md` R65). -/
  | getstate
  /-- SETSTATE (`43_control.md` R66). -/
  | setstate
  deriving DecidableEq, Repr

end Sys2Proof
end

