-- ==== Sys2Proof/WellFormed.lean ====
section
/-! DEFINITION. Which commands the host may present: a SEED_BYTES word comes with exactly LEN payload bytes
(`30_encoding.md` R34). The other commands have no operand, so nothing can be wrong with them. -/

namespace Sys2Proof

/-- The payload is exactly as long as the LEN field says (`30_encoding.md` R34, `60_exceptions.md` R76 (b)). -/
def Instr.wf : Instr → Bool
  | .seedBytes len payload => payload.length == len.toNat
  | .seedEntropy => true
  | .nextU64 => true
  | .nextF64 => true
  | .getstate => true
  | .setstate => true

end Sys2Proof
end

