-- ==== Sys2Proof/Decode.lean ====
section
/-! DEFINITION. The command decoder, total on all command words (`30_encoding.md` R39), and after it the encoder,
written from the table of R36. -/

namespace Sys2Proof

/-- OPC of SEED_BYTES (`30_encoding.md` R36). -/
def OPC_SEED_BYTES : Byte := 0x01#8
/-- OPC of SEED_ENTROPY (`30_encoding.md` R36). -/
def OPC_SEED_ENTROPY : Byte := 0x02#8
/-- OPC of NEXT_U64 (`30_encoding.md` R36). -/
def OPC_NEXT_U64 : Byte := 0x10#8
/-- OPC of NEXT_F64 (`30_encoding.md` R36). -/
def OPC_NEXT_F64 : Byte := 0x11#8
/-- OPC of GETSTATE (`30_encoding.md` R36). -/
def OPC_GETSTATE : Byte := 0x20#8
/-- OPC of SETSTATE (`30_encoding.md` R36). -/
def OPC_SETSTATE : Byte := 0x21#8

/-- OPC = CMD[7:0] (`30_encoding.md` R32). -/
def opcField (w : CmdWord) : Byte := w.extractLsb' 0 8

/-- LEN or Z = CMD[31:8] (`30_encoding.md` R32). -/
def lenField (w : CmdWord) : Len := w.extractLsb' 8 24

/-- Why a command word is ILLEGAL, by the check of `30_encoding.md` R39 that finds it so. The host cannot tell the
two apart: both give ILLEGAL_COMMAND (R37, R38). -/
inductive IllegalReason where
  /-- OPC is not 0x01 and CMD[31:8] is not 0 (R38). -/
  | nonzeroZ
  /-- CMD[31:8] is 0 and OPC is reserved (R37). -/
  | reservedOpcode
  deriving DecidableEq, Repr

/-- What the decoder reads from a command word and the bytes presented with it on the payload channel, with the
bytes it did not take. -/
inductive Decoded where
  | instr (i : Instr) (rest : List Byte)
  | illegal (why : IllegalReason) (rest : List Byte)
  deriving DecidableEq, Repr

/-- The decoder (`30_encoding.md` R39). A SEED_BYTES word takes LEN bytes from the payload channel, or all of them
where there are fewer, and then the command read is not well formed (R34); no other word takes any (R40). -/
def decode (w : CmdWord) (channel : List Byte) : Decoded :=
  if opcField w = OPC_SEED_BYTES then
    .instr (.seedBytes (lenField w) (channel.take (lenField w).toNat)) (channel.drop (lenField w).toNat)
  else if lenField w ≠ 0 then .illegal .nonzeroZ channel
  else if opcField w = OPC_SEED_ENTROPY then .instr .seedEntropy channel
  else if opcField w = OPC_NEXT_U64 then .instr .nextU64 channel
  else if opcField w = OPC_NEXT_F64 then .instr .nextF64 channel
  else if opcField w = OPC_GETSTATE then .instr .getstate channel
  else if opcField w = OPC_SETSTATE then .instr .setstate channel
  else .illegal .reservedOpcode channel

/-- The payload length a decoder tells from the word alone (`30_encoding.md` R40). -/
def payloadBytes (w : CmdWord) : Nat :=
  if opcField w = OPC_SEED_BYTES then (lenField w).toNat else 0

/-- The command word of an instruction (`30_encoding.md` R36, "Complete command words"). -/
def encodeWord : Instr → CmdWord
  | .seedBytes len _ => 0x00000001#32 ||| (len.setWidth 32 <<< 8)
  | .seedEntropy => 0x00000002#32
  | .nextU64 => 0x00000010#32
  | .nextF64 => 0x00000011#32
  | .getstate => 0x00000020#32
  | .setstate => 0x00000021#32

/-- The payload that follows an instruction's command word (`30_encoding.md` R34). -/
def encodePayload : Instr → List Byte
  | .seedBytes _ payload => payload
  | .seedEntropy => []
  | .nextU64 => []
  | .nextF64 => []
  | .getstate => []
  | .setstate => []

/-- The encoder: the word and the payload of an instruction. -/
def encode (i : Instr) : CmdWord × List Byte := (encodeWord i, encodePayload i)

/-- Bytes 0 to n-1 of a value, least significant first: the order in which a platform serialises a command word or
RESP_DATA (`20_memory.md` R24). -/
def bytesLE {w : Nat} (v : BitVec w) : Nat → List Byte
  | 0 => []
  | n + 1 => v.setWidth 8 :: bytesLE (v >>> 8) n

/-- A whole command as bytes: the word, little-endian, then the payload (`20_memory.md` R24, `30_encoding.md` R40). -/
def commandBytes (i : Instr) : List Byte := bytesLE (encodeWord i) 4 ++ encodePayload i

/-- The command word in a table word's bits 31 to 0. -/
def tableWord (nbits w : Nat) : CmdWord := BitVec.ofNat 32 (w % 2 ^ nbits)

/-- The first n bytes of a number, least significant first. -/
def natBytes (w : Nat) : Nat → List Byte
  | 0 => []
  | n + 1 => BitVec.ofNat 8 w :: natBytes (w >>> 8) n

/-- The payload of a table word: as many bytes as its command word asks for (`30_encoding.md` R40), from the bits
that count on from bit 32, all 0 above `nbits`. -/
def tablePayload (nbits w : Nat) : List Byte :=
  natBytes ((w % 2 ^ nbits) >>> 32) (payloadBytes (tableWord nbits w))

/-- The instruction the decoder reads from a row's bits as `opcode_table.json` numbers them; none where the word is
ILLEGAL. -/
def decodeTableWord (nbits w : Nat) : Option Instr :=
  match decode (tableWord nbits w) (tablePayload nbits w) with
  | .instr i _ => some i
  | .illegal _ _ => none

end Sys2Proof
end

