-- ==== Sys2Proof/Machine/State.lean ====
section
/-! DEFINITION. The state of the machine (`10_state.md`), the inputs it takes, the ways a step can stop, and the state
after reset (`70_reset_and_hazards.md` R86). All of it is plain data. -/

namespace Sys2Proof.Machine

/-- PHASE (`10_state.md` R19): ready for a command, or waiting for the answer to an entropy request. -/
inductive Phase where
  | idle
  | waitEntropy
  deriving DecidableEq, Repr

/-- The six status names (`60_exceptions.md` R69); their codes are `Status.code` of Flags.lean. -/
inductive Status where
  | ok
  | invalidSeedLength
  | entropyUnavailable
  | unsupported
  | notSeeded
  | illegalCommand
  deriving DecidableEq, Repr

/-- A response: RESP_STATUS and RESP_DATA as a completed command leaves them (`30_encoding.md` R35). -/
structure Response where
  status : BitVec 8
  data : U64
  deriving DecidableEq, Repr

/-- An answer of the entropy source (`60_exceptions.md` R79): exactly 32 bytes in arrival order, or none. -/
inductive EntropyAnswer where
  | ok (bytes : Vector Byte Config.ENT_REQ)
  | unavailable
  deriving DecidableEq, Repr

/-- What the agents outside the core do (`60_exceptions.md` R85). -/
inductive Input where
  /-- The host presents a command word with its payload (`30_encoding.md` R32, R34). -/
  | command (word : CmdWord) (payload : List Byte)
  /-- The entropy source answers (`60_exceptions.md` R79): on a waiting core, the request that waits (log 8). -/
  | entropy (answer : EntropyAnswer)
  /-- The host reads RESP_STATUS and RESP_DATA (`20_memory.md` R26). -/
  | readResponse
  /-- The host asserts the reset input (`70_reset_and_hazards.md` R86). -/
  | reset
  deriving DecidableEq, Repr

/-- The two kinds of breach of the host protocol (`60_exceptions.md` R76). -/
inductive ViolationKind where
  /-- A command word presented while a command is outstanding. -/
  | overlap
  /-- Payload bytes that are not exactly those the command word asks for. -/
  | payloadLength
  deriving DecidableEq, Repr

/-- Model-level faults; none is an architectural outcome of the core. -/
inductive Fault where
  /-- The host broke its protocol (`60_exceptions.md` R76). Raised by accepting a command (overlap, and payload bytes
  left over) and by SEED_BYTES (payload bytes missing). It ends the run, so it is never cleared (log 7). Safe: the
  model gives no next state where the source says undefined. -/
  | protocolViolation (kind : ViolationKind)
  /-- A read of STATE or INC while SEEDED = 0, which the spec orders a model to treat as a fault, never as a value
  (`10_state.md` R11, R12, `70_reset_and_hazards.md` R86). Raised by `readGenerator`; no command performs such a read
  (R11, R63), so no step ends in it. Safe: it stops instead of giving a value. Its name is the model's (log 5). -/
  | readWithoutValue
  deriving DecidableEq, Repr

/-- Refusals. -/
inductive Refusal where
  /-- An instruction with no meaning in this model. Raised by no arm of `exec`: every command has its meaning. Safe. -/
  | notModelled (mnemonic : String)
  deriving DecidableEq, Repr

/-- The core's six elements (`10_state.md`), and after them two fields of the model: what the host and the entropy
source are still going to do, and the responses delivered so far. -/
structure State where
  /-- STATE (R11). It holds no value while SEEDED = 0: read it through `readGenerator`. -/
  state : U128
  /-- INC (R12), with the same rule. -/
  inc : U128
  /-- SEEDED (R14). -/
  seeded : Bool
  /-- RESP_STATUS (R15). -/
  respStatus : BitVec 8
  /-- RESP_DATA (R16). -/
  respData : U64
  /-- PHASE (R19); a pending entropy request is PHASE = WAIT_ENTROPY. -/
  phase : Phase
  /-- The MODEL's own field (log 2): the inputs still to come, oldest first (`60_exceptions.md` R85,
  `20_memory.md` R28). -/
  inputs : List Input
  /-- The MODEL's own field (log 4): the responses delivered so far, oldest first, the observation of a run
  (`70_reset_and_hazards.md` R93). -/
  responses : List Response
  deriving DecidableEq, Repr

/-- What a step, or a meaning, answers. -/
abbrev Outcome := Host.Outcome State Fault Refusal

/-- The machine right after reset (`70_reset_and_hazards.md` R86). DESIGN CHOICE (log 1): STATE and INC, which the spec
leaves without a value, are 0. The lists of inputs and of responses are empty (log 2, log 4). -/
def State.reset : State where
  state := 0
  inc := 0
  seeded := false
  respStatus := 0x00
  respData := 0x0000000000000000
  phase := .idle
  inputs := []
  responses := []

end Sys2Proof.Machine
end

