-- ==== Sys2Proof/Machine/Flags.lean ====
section
/-! DEFINITION. The core's status information (`10_state.md` R14, R15). There are no condition codes: SEEDED and the
status codes of `60_exceptions.md` R69 are all there is. -/

namespace Sys2Proof.Machine

/-- The status codes (`60_exceptions.md` R69). -/
def Status.code : Status → BitVec 8
  | .ok => 0x00
  | .invalidSeedLength => 0x01
  | .entropyUnavailable => 0x02
  | .unsupported => 0x03
  | .notSeeded => 0x04
  | .illegalCommand => 0x05

/-- The status name of a code; none for 0x06 to 0xFF, which are never written (`10_state.md` R15). -/
def Status.ofCode (c : BitVec 8) : Option Status :=
  if c = 0x00 then some .ok
  else if c = 0x01 then some .invalidSeedLength
  else if c = 0x02 then some .entropyUnavailable
  else if c = 0x03 then some .unsupported
  else if c = 0x04 then some .notSeeded
  else if c = 0x05 then some .illegalCommand
  else none

/-- A legal value of RESP_STATUS: one of the six codes (`10_state.md` R15). -/
def legalCode (c : BitVec 8) : Bool := (Status.ofCode c).isSome

end Sys2Proof.Machine
end

