-- ==== Sys2Proof/Machine/Ops.lean ====
section
/-! DEFINITION. The shared operations on the state that the meanings are built from. The core has no trap mechanism
(`60_exceptions.md` R74, R75): what stands here for taking an exception is the error completion `raiseError` (R70),
and there is no return from it. -/

namespace Sys2Proof.Machine

/-- `respond(status, data)` (`00_scope.md` R9): completes the current command, writing RESP_STATUS, RESP_DATA and
PHASE <- IDLE. The response is delivered with it (`30_encoding.md` R35, log 4). -/
def respond (st : Status) (data : U64) (s : State) : State :=
  { s with
    respStatus := st.code
    respData := data
    phase := .idle
    responses := s.responses ++ [⟨st.code, data⟩] }

/-- `raise E` (`60_exceptions.md` R70): completes the command with E and data 0, and writes nothing else. -/
def raiseError (e : Status) (s : State) : State := respond e 0x0000000000000000 s

/-- The one read of STATE and INC. The spec itself orders its stop: "a model must treat a read of STATE while SEEDED = 0
as a fault, never as a value; no rule of this spec performs such a read" (`10_state.md` R11; R12 of INC; R86;
`92_eei_decisions.md` D13; `93_implementation_defined.md` U6). No instruction is stopped by it: NEXT_U64 and NEXT_F64 check
SEEDED first and then have the effect R63 gives them, NOT_SEEDED (`draw`). Only the fault's name is the model's (log 5). -/
def readGenerator (s : State) : Except Fault (U128 × U128) :=
  if s.seeded then .ok (s.state, s.inc) else .error .readWithoutValue

/-- The writes of a successful seeding: INC, STATE and SEEDED <- 1 (`41_seeding.md` R53, R59). -/
def writeGenerator (g : U128 × U128) (s : State) : State :=
  { s with state := g.1, inc := g.2, seeded := true }

/-- The write of an output command: STATE advances, INC stays (`42_output.md` R61). -/
def writeState (v : U128) (s : State) : State := { s with state := v }

/-- `EntropyRequest()` with PHASE <- WAIT_ENTROPY (`41_seeding.md` R58): the request for ENT_REQ bytes is pending as
long as PHASE = WAIT_ENTROPY. -/
def requestEntropy (s : State) : State := { s with phase := .waitEntropy }

/-- The reset input (`70_reset_and_hazards.md` R86): the core's six elements as after reset, from any state; a pending
entropy request is abandoned without a response. What the outside will still do, and the responses it has had, are
not the core's to clear. -/
def resetCore (s : State) : State :=
  { State.reset with inputs := s.inputs, responses := s.responses }

end Sys2Proof.Machine
end

