-- ==== Sys2Proof/Machine/Control.lean ====
section
/-! DEFINITION. The state-access commands and illegal words (`43_control.md`). -/

namespace Sys2Proof.Machine

/-- GETSTATE (`43_control.md` R65): always UNSUPPORTED; STATE and INC are not read. -/
def execGetstate (s : State) : Outcome := .next (raiseError .unsupported s)

/-- SETSTATE (`43_control.md` R66): always UNSUPPORTED; STATE, INC and SEEDED are not written. -/
def execSetstate (s : State) : Outcome := .next (raiseError .unsupported s)

/-- A word that decodes to ILLEGAL (`43_control.md` R67). -/
def execIllegal (s : State) : Outcome := .next (raiseError .illegalCommand s)

end Sys2Proof.Machine
end

