-- ==== Sys2Proof/Machine/Constants.lean ====
section
/-! DEFINITION. The algorithm's fixed constants (`00_scope.md` R5), each named once, so that an audit of the literals
changes one place (`92_eei_decisions.md` D27). UNVERIFIED: the spec itself calls the literals unaudited (log 10). -/

namespace Sys2Proof.Machine

/-- MUL, the multiplier of the transition and of the first DXSM multiply (`00_scope.md` R5). -/
def MUL : U64 := 15750249268501108917#64

/-- XS1, the first xorshift amount (`00_scope.md` R5; 22 and not 32, `90_conflicts.md` C8). -/
def XS1 : Nat := 22

/-- XS2, the second xorshift amount (`00_scope.md` R5). -/
def XS2 : Nat := 48

/-- F_SHIFT, the bits dropped before the conversion to a double (`00_scope.md` R5). -/
def F_SHIFT : Nat := 11

/-- F_SCALE = 2^-53 (`00_scope.md` R5). -/
def F_SCALE : ℚ := 1 / 2 ^ 53

/-- SEED_MIN, the shortest seed in bytes (`00_scope.md` R5). -/
def SEED_MIN : Nat := 32

/-- SEED_USED, the seed bytes consumed; the rest are ignored (`00_scope.md` R5). -/
def SEED_USED : Nat := 32

end Sys2Proof.Machine
end

