-- ==== Sys2Proof/Machine/Datapath.lean ====
section
/-! DEFINITION. The pure functions of the datapath (`40_datapath.md`): total, reading and writing no state. -/

namespace Sys2Proof.Machine

/-- The LCG transition (`40_datapath.md` R45), modulo 2^128. In this file the constant MUL stands as the left factor of
a product: the kernel unfolds a literal right factor one by one when it compares two states. -/
def lcg (s inc : U128) : U128 := MUL.setWidth 128 * s + inc

/-- high(s) = s[127:64] (`40_datapath.md` R46). -/
def high (s : U128) : U64 := s.extractLsb' 64 64

/-- low(s) = s[63:0] | 1 (`40_datapath.md` R46). -/
def low (s : U128) : U64 := s.extractLsb' 0 64 ||| 1

/-- h XOR (h >> n), the shift logical (`40_datapath.md` R47). -/
def xorshift (n : Nat) (h : U64) : U64 := h ^^^ (h >>> n)

/-- The DXSM permutation (`40_datapath.md` R47); there is no rotation (`90_conflicts.md` C4). -/
def dxsm (s : U128) : U64 := xorshift XS2 (MUL * xorshift XS1 (high s)) * low s

/-- The generator cycle (`40_datapath.md` R52): the output is computed from the updated state. -/
def cycle (s inc : U128) : U128 × U64 := (lcg s inc, dxsm (lcg s inc))

/-- m, the 53 significant bits of a draw (`40_datapath.md` R48). -/
def mantissa (u : U64) : U64 := u >>> F_SHIFT

/-- The float converter (`40_datapath.md` R48): the binary64 encoding of m * 2^-53, with e the index of m's most
significant 1 bit. -/
def f64bits (u : U64) : U64 :=
  let m := mantissa u
  let e := Nat.log2 m.toNat
  if m = 0 then 0x0000000000000000
  else (BitVec.ofNat 64 (970 + e) <<< 52) ||| ((m - BitVec.twoPow 64 e) <<< (52 - e))

/-- The output selector (`40_datapath.md` R49): what RESP_DATA carries when `cmd` completes with status `st`. -/
def select (cmd : Instr) (st : Status) (u : U64) : U64 :=
  match cmd with
  | .nextU64 => if st = .ok then u else 0x0000000000000000
  | .nextF64 => if st = .ok then f64bits u else 0x0000000000000000
  | .seedBytes _ _ => 0x0000000000000000
  | .seedEntropy => 0x0000000000000000
  | .getstate => 0x0000000000000000
  | .setstate => 0x0000000000000000

end Sys2Proof.Machine
end

