-- ==== Sys2Proof/Machine/Output.lean ====
section
/-! DEFINITION. The output commands (`42_output.md`): NEXT_U64 and NEXT_F64. -/

namespace Sys2Proof.Machine

/-- One draw, shared by both output commands: the SEEDED check first (`42_output.md` R63), then one generator cycle,
STATE advanced, and the response the output selector chooses for `cmd` (`40_datapath.md` R49). -/
def draw (cmd : Instr) (s : State) : Outcome :=
  if s.seeded then
    match readGenerator s with
    | .ok (st, inc) =>
      .next (respond .ok (select cmd .ok (cycle st inc).2) (writeState (cycle st inc).1 s))
    | .error f => .fault f
  else .next (raiseError .notSeeded s)

/-- NEXT_U64 (`42_output.md` R61). -/
def execNextU64 (s : State) : Outcome := draw .nextU64 s

/-- NEXT_F64 (`42_output.md` R62). -/
def execNextF64 (s : State) : Outcome := draw .nextF64 s

end Sys2Proof.Machine
end

