-- ==== Sys2Proof/Machine/Operands.lean ====
section
/-! DEFINITION. How seed bytes become operands: the little-endian assembly of `40_datapath.md` R44 and the two halves
of the seed (`20_memory.md` R23). -/

namespace Sys2Proof.Machine

/-- LE128 (`40_datapath.md` R44): byte i has weight 2^(8i). The spec's sum over a sequence of 16 bytes, in Horner's
form. -/
def le128 : List Byte → U128
  | [] => 0
  | b :: bs => (le128 bs <<< 8) ||| b.setWidth 128

/-- The bytes of a seed that are consumed (`20_memory.md` R22, `41_seeding.md` R57). -/
def seedUsed (b : List Byte) : List Byte := b.take SEED_USED

/-- raw_state = LE128(b[0:16]) (`41_seeding.md` R54). -/
def rawState (b : List Byte) : U128 := le128 ((seedUsed b).take 16)

/-- raw_increment = LE128(b[16:32]) (`41_seeding.md` R54). -/
def rawIncrement (b : List Byte) : U128 := le128 ((seedUsed b).drop 16)

end Sys2Proof.Machine
end

