-- ==== Sys2Proof/Machine/Seeding.lean ====
section
/-! DEFINITION. The seeding commands (`41_seeding.md`): SEED_BYTES, and SEED_ENTROPY with its two completions. -/

namespace Sys2Proof.Machine

/-- inc = raw_inc | 1 (`41_seeding.md` R54). -/
def seedIncrement (b : List Byte) : U128 := rawIncrement b ||| 1

/-- s0 = (raw_state + inc) mod 2^128, the additive fold (`41_seeding.md` R54, `90_conflicts.md` C6). -/
def seedFold (b : List Byte) : U128 := rawState b + seedIncrement b

/-- Seed derivation (`41_seeding.md` R54): the pair (state, inc). The warm-up cycle's output is discarded (R55). -/
def derive (b : List Byte) : U128 × U128 :=
  ((cycle (seedFold b) (seedIncrement b)).1, seedIncrement b)

/-- A seeding that succeeds with seed bytes b, shared by SEED_BYTES and the entropy completion
(`41_seeding.md` R53, R59). -/
def seedWith (b : List Byte) (s : State) : State :=
  respond .ok 0x0000000000000000 (writeGenerator (derive b) s)

/-- SEED_BYTES (`41_seeding.md` R53, R56, R57). A payload that is not LEN bytes long is the host's breach, which has no
next state (`30_encoding.md` R34, `60_exceptions.md` R76). -/
def execSeedBytes (len : Len) (payload : List Byte) (s : State) : Outcome :=
  if payload.length = len.toNat then
    if len.toNat < SEED_MIN then .next (raiseError .invalidSeedLength s)
    else .next (seedWith payload s)
  else .fault (.protocolViolation .payloadLength)

/-- SEED_ENTROPY, issue step (`41_seeding.md` R58). -/
def execSeedEntropy (s : State) : Outcome := .next (requestEntropy s)

/-- SEED_ENTROPY, completion step, with PHASE = WAIT_ENTROPY (`41_seeding.md` R59 with bytes, R60 without). -/
def completeEntropy (a : EntropyAnswer) (s : State) : Outcome :=
  match a with
  | .ok bytes => .next (seedWith bytes.toList s)
  | .unavailable => .next (raiseError .entropyUnavailable s)

end Sys2Proof.Machine
end

