-- ==== Sys2Proof/Machine/Dispatch.lean ====
section
/-! DEFINITION. The meaning of each command, one arm per constructor of Instr. -/

namespace Sys2Proof.Machine

def exec (i : Instr) (s : State) : Host.Outcome State Fault Refusal :=
  match i with
  | .seedBytes len payload => Sys2Proof.Machine.execSeedBytes len payload s
  | .seedEntropy => Sys2Proof.Machine.execSeedEntropy s
  | .nextU64 => Sys2Proof.Machine.execNextU64 s
  | .nextF64 => Sys2Proof.Machine.execNextF64 s
  | .getstate => Sys2Proof.Machine.execGetstate s
  | .setstate => Sys2Proof.Machine.execSetstate s

end Sys2Proof.Machine
end

