-- ==== Sys2Proof/Machine/Port.lean ====
section
/-! DEFINITION. The core's four ports (`20_memory.md` R21): what each input does to it. -/

namespace Sys2Proof.Machine

/-- The command port. A command while one is outstanding is an overlap (`60_exceptions.md` R76 (a)); payload bytes that
the word does not take are a breach of R76 (b) and (c), whether the word is legal or not; else the decoded command is
executed, and an illegal word answers ILLEGAL_COMMAND (R71 (1)). The order of the two protocol checks is the model's
(log 6). -/
def acceptCommand (w : CmdWord) (payload : List Byte) (s : State) : Outcome :=
  if s.phase = .waitEntropy then .fault (.protocolViolation .overlap)
  else
    match decode w payload with
    | .instr i rest => if rest = [] then exec i s else .fault (.protocolViolation .payloadLength)
    | .illegal _ rest => if rest = [] then execIllegal s else .fault (.protocolViolation .payloadLength)

/-- The entropy port (`60_exceptions.md` R79): an answer completes the waiting SEED_ENTROPY; with no request pending it
is ignored. -/
def acceptEntropy (a : EntropyAnswer) (s : State) : Outcome :=
  if s.phase = .waitEntropy then completeEntropy a s else .next s

/-- One input. Reading the response has no side effect (`20_memory.md` R26); reset is R86. -/
def takeInput (x : Input) (s : State) : Outcome :=
  match x with
  | .command w payload => acceptCommand w payload s
  | .entropy a => acceptEntropy a s
  | .readResponse => .next s
  | .reset => .next (resetCore s)

/-- RESP_DATA as a platform sends it over a byte-wide channel: byte k is RESP_DATA[8k+7:8k], k = 0 first
(`20_memory.md` R24). -/
def respDataBytes (s : State) : List Byte := bytesLE s.respData 8

end Sys2Proof.Machine
end

