-- ==== Sys2Proof/Machine/Step.lean ====
section
/-! DEFINITION. One step of the machine: it takes the oldest input. The core fetches nothing and has no program
counter (`10_state.md` R18, `20_memory.md` R31): the host presents each command. -/

namespace Sys2Proof.Machine

/-- A step takes the oldest input. With none, nothing happens: the core never steps by itself, it waits
(`60_exceptions.md` R85; log 3). -/
def step (s : State) : Host.Outcome State Fault Refusal :=
  match s.inputs with
  | [] => .next s
  | x :: rest => takeInput x { s with inputs := rest }

/-- The state in which the host presents, as the very next input, the command of a row's bits as `opcode_table.json`
numbers them, and the core is ready for it (log 13). -/
def State.withFetchWord (s : State) (nbits w : Nat) : State :=
  { s with
    phase := .idle
    inputs := .command (tableWord nbits w) (tablePayload nbits w) :: s.inputs }

end Sys2Proof.Machine
end

