-- ==== Sys2Proof/Machine/Assembler.lean ====
section
/-! DEFINITION. The assembler syntax (`30_encoding.md` R41, R42) and the response notation (R43). These are the host's
tools, beside the machine: a line of text to what the host presents on the command port, and a response to text.
DESIGN CHOICE (log 12): numbers are decimal or 0x hexadecimal, hexadecimal digits are of either case, blanks may stand
around every part, a payload too long for LEN is refused, and `.cmd` words are emitted unchecked. -/

namespace Sys2Proof.Machine

/-- The payload notations of `30_encoding.md` R41. -/
inductive PayloadText where
  /-- `x"<hex>"`, the bytes in order. -/
  | hex (bytes : List Byte)
  /-- `zeros(<n>)`. -/
  | zeros (n : Nat)
  /-- `fill(<n>, <byte>)`. -/
  | fill (n : Nat) (b : Byte)
  deriving DecidableEq, Repr

/-- One line of assembler (`30_encoding.md` R41). -/
inductive AsmLine where
  | seedBytes (payload : PayloadText)
  | seedEntropy
  | nextU64
  | nextF64
  | getstate
  | setstate
  /-- `.cmd 0x<8 hex digits>`: the raw word, no payload. -/
  | cmd (w : CmdWord)
  deriving DecidableEq, Repr

/-- The bytes a payload notation stands for. -/
def PayloadText.bytes : PayloadText → List Byte
  | .hex bytes => bytes
  | .zeros n => List.replicate n 0x00
  | .fill n b => List.replicate n b

/-- The SEED_BYTES command with a payload; LEN is the number of bytes. -/
def seedBytesOf (payload : List Byte) : Instr := .seedBytes (BitVec.ofNat 24 payload.length) payload

/-- What a line encodes: a command word and its payload (`30_encoding.md` R41). None for a payload too long for LEN
(`30_encoding.md` R33). A `.cmd` word is emitted without checking it (R42; log 12). -/
def assemble : AsmLine → Option (CmdWord × List Byte)
  | .seedBytes p => if p.bytes.length < 2 ^ 24 then some (encode (seedBytesOf p.bytes)) else none
  | .seedEntropy => some (encode .seedEntropy)
  | .nextU64 => some (encode .nextU64)
  | .nextF64 => some (encode .nextF64)
  | .getstate => some (encode .getstate)
  | .setstate => some (encode .setstate)
  | .cmd w => some (w, [])

/-- A blank. -/
def isBlank (c : Char) : Bool := c == ' ' || c == '\t'

/-- The text without the blanks at both ends. -/
def trim (l : List Char) : List Char :=
  ((l.dropWhile isBlank).reverse.dropWhile isBlank).reverse

/-- The value of a hexadecimal digit. -/
def hexValue (c : Char) : Option Nat :=
  if '0' ≤ c ∧ c ≤ '9' then some (c.toNat - '0'.toNat)
  else if 'a' ≤ c ∧ c ≤ 'f' then some (c.toNat - 'a'.toNat + 10)
  else if 'A' ≤ c ∧ c ≤ 'F' then some (c.toNat - 'A'.toNat + 10)
  else none

/-- Digits of a base up to 16, most significant first, onto the value read so far. -/
def digitsFrom (base : Nat) : Nat → List Char → Option Nat
  | acc, [] => some acc
  | acc, c :: cs =>
    match hexValue c with
    | some d => if d < base then digitsFrom base (acc * base + d) cs else none
    | none => none

/-- A number, decimal or 0x hexadecimal. -/
def parseNumber (l : List Char) : Option Nat :=
  match l with
  | [] => none
  | '0' :: 'x' :: [] => none
  | '0' :: 'x' :: ds => digitsFrom 16 0 ds
  | ds => digitsFrom 10 0 ds

/-- Two hexadecimal digits per byte, the leftmost pair first (`30_encoding.md` R41). -/
def parseHexBytes : List Char → Option (List Byte)
  | [] => some []
  | [_] => none
  | a :: b :: rest =>
    match hexValue a, hexValue b, parseHexBytes rest with
    | some x, some y, some bs => some (BitVec.ofNat 8 (16 * x + y) :: bs)
    | _, _, _ => none

/-- The text between an opening word and a closing character, if the text has that form. -/
def between (opening : List Char) (closing : Char) (l : List Char) : Option (List Char) :=
  if opening.isPrefixOf l && l.getLast? == some closing && opening.length < l.length then
    some ((l.drop opening.length).dropLast)
  else none

/-- A payload notation (`30_encoding.md` R41). -/
def parsePayload (l : List Char) : Option PayloadText :=
  match between ['x', '"'] '"' l, between "zeros(".toList ')' l, between "fill(".toList ')' l with
  | some h, _, _ => (parseHexBytes h).map .hex
  | _, some n, _ => (parseNumber (trim n)).map .zeros
  | _, _, some args =>
    match parseNumber (trim (args.takeWhile (· != ','))),
        parseNumber (trim ((args.dropWhile (· != ',')).drop 1)) with
    | some n, some b => if b < 256 then some (.fill n (BitVec.ofNat 8 b)) else none
    | _, _ => none
  | none, none, none => none

/-- The operand of `.cmd`: 0x and 8 hexadecimal digits. -/
def parseRawWord (l : List Char) : Option AsmLine :=
  match l with
  | '0' :: 'x' :: ds => if ds.length = 8 then (digitsFrom 16 0 ds).map (fun n => .cmd (BitVec.ofNat 32 n)) else none
  | _ => none

/-- A mnemonic and its operand text. -/
def parseCommand (mnemonic operand : List Char) : Option AsmLine :=
  if mnemonic = "SEED_BYTES".toList then (parsePayload operand).map .seedBytes
  else if mnemonic = ".cmd".toList then parseRawWord operand
  else if operand ≠ [] then none
  else if mnemonic = "SEED_ENTROPY".toList then some .seedEntropy
  else if mnemonic = "NEXT_U64".toList then some .nextU64
  else if mnemonic = "NEXT_F64".toList then some .nextF64
  else if mnemonic = "GETSTATE".toList then some .getstate
  else if mnemonic = "SETSTATE".toList then some .setstate
  else none

/-- One line of text (`30_encoding.md` R41): `some none` for a blank or comment line, `none` for a line that is not of
the syntax. -/
def parseLine (text : String) : Option (Option AsmLine) :=
  let l := trim (text.toList.takeWhile (· != ';'))
  if l = [] then some none
  else (parseCommand (l.takeWhile (!isBlank ·)) (trim (l.dropWhile (!isBlank ·)))).map some

/-- The status names (`60_exceptions.md` R69). -/
def Status.name : Status → String
  | .ok => "OK"
  | .invalidSeedLength => "INVALID_SEED_LENGTH"
  | .entropyUnavailable => "ENTROPY_UNAVAILABLE"
  | .unsupported => "UNSUPPORTED"
  | .notSeeded => "NOT_SEEDED"
  | .illegalCommand => "ILLEGAL_COMMAND"

/-- A hexadecimal digit, upper case. -/
def hexChar (n : Nat) : Char := if n < 10 then Char.ofNat (48 + n) else Char.ofNat (55 + n)

/-- n hexadecimal digits of a number, most significant first. -/
def hexChars (v : Nat) : Nat → List Char
  | 0 => []
  | n + 1 => hexChars (v / 16) n ++ [hexChar (v % 16)]

/-- A response as text, `-> <STATUS name>, 0x<16 hex digits>` (`30_encoding.md` R43); none for a status code that is
never written. -/
def renderResponse (r : Response) : Option (List Char) :=
  (Status.ofCode r.status).map fun st =>
    "-> ".toList ++ st.name.toList ++ ", 0x".toList ++ hexChars r.data.toNat 16

end Sys2Proof.Machine
end

