-- ==== Sys2Proof/Machine/Binary64.lean ====
section
/-! DEFINITION. What a 64-bit encoding stands for as a double (`00_scope.md` R10, `93_implementation_defined.md` G2),
and the real number the converter is to deliver (`40_datapath.md` R48). The machine does not use this file: claims
about NEXT_F64 do. PRESUMED (log 11): the readings of exponents 0 and 2047, which no output of the core has but +0.0. -/

namespace Sys2Proof.Machine

/-- Bit 63, the sign (`00_scope.md` R10). -/
def signBit (x : U64) : Bool := x.getLsbD 63

/-- Bits [62:52], the biased exponent (`00_scope.md` R10). -/
def biasedExponent (x : U64) : Nat := (x.extractLsb' 52 11).toNat

/-- Bits [51:0], the fraction (`00_scope.md` R10). -/
def fraction (x : U64) : Nat := (x.extractLsb' 0 52).toNat

/-- The number a finite binary64 encoding stands for: bias 1023 and an implicit leading 1 for normal numbers; none for
an infinity or a NaN. 1075 = 1023 + 52. -/
def binary64 (x : U64) : Option ℚ :=
  let sign : ℚ := if signBit x then -1 else 1
  if biasedExponent x = 2047 then none
  else if biasedExponent x = 0 then some (sign * fraction x / 2 ^ 1074)
  else some (sign * (2 ^ 52 + fraction x) * 2 ^ biasedExponent x / 2 ^ 1075)

/-- value(u) = m * 2^-53, exactly (`40_datapath.md` R48). -/
def value (u : U64) : ℚ := (mantissa u).toNat * F_SCALE

end Sys2Proof.Machine
end

