-- ==== Sys2Proof/Safety.lean ====
section
/-! DEFINITION. What a safe run is: the invariant of the generator (`10_state.md` R13, R15), the runs of the machine and
when they have ended (`70_reset_and_hazards.md` R93), and what the host must respect (`60_exceptions.md` R76). -/

namespace Sys2Proof.Machine

/-- What holds at every observable point. -/
structure State.Inv (s : State) : Prop where
  /-- Whenever SEEDED = 1, INC is odd (`10_state.md` R13). -/
  incOdd : s.seeded = true → s.inc.getLsbD 0 = true
  /-- RESP_STATUS is one of the six codes (`10_state.md` R15). -/
  statusLegal : legalCode s.respStatus = true
  /-- A response that is not OK carries the data 0 (`60_exceptions.md` R69). -/
  errorDataZero : s.respStatus ≠ Status.ok.code → s.respData = 0
  /-- The same two hold of every response delivered so far. -/
  responsesLegal : ∀ r ∈ s.responses, legalCode r.status = true ∧ (r.status ≠ Status.ok.code → r.data = 0)

/-- n steps, ending at the first fault or refusal. -/
def run : Nat → State → Outcome
  | 0, s => .next s
  | n + 1, s =>
    match step s with
    | .next t => run n t
    | .fault f => .fault f
    | .refused r => .refused r

/-- The machine driven over all the inputs a state holds, those that come after the end of a run too. -/
def runInputs (s : State) : Outcome := run s.inputs.length s

/-- An input is a command the host presents. -/
def Input.isCommand : Input → Bool
  | .command _ _ => true
  | .entropy _ => false
  | .readResponse => false
  | .reset => false

/-- A run has ended when the host presents no further command and PHASE = IDLE (`70_reset_and_hazards.md` R93), whatever
else is still to come; one with PHASE = WAIT_ENTROPY is not over (`60_exceptions.md` R79). -/
abbrev Ended (s : State) : Prop := s.inputs.any Input.isCommand = false ∧ s.phase = .idle

/-- The observation of a run, taken at its end: its responses and the final SEEDED (`70_reset_and_hazards.md` R93). -/
def observation (s : State) : List Response × Bool := (s.responses, s.seeded)

/-- At most n steps, none of them from a state in which the run has ended. -/
def runUntilEnd : Nat → State → Outcome
  | 0, s => .next s
  | n + 1, s =>
    if Ended s then .next s
    else
      match step s with
      | .next t => runUntilEnd n t
      | .fault f => .fault f
      | .refused r => .refused r

/-- The run a state's inputs make, up to its end: the resets and entropy answers that come before the end occur in it,
those after it do not (`70_reset_and_hazards.md` R93; log 17). Where it does not end, the core waits for an entropy
answer with no input left. -/
def runToEnd (s : State) : Outcome := runUntilEnd s.inputs.length s

/-- What is observed of the run a state's inputs make; nothing of a run that has not ended or that a protocol violation
stops (`70_reset_and_hazards.md` R93, `60_exceptions.md` R76). -/
def observedRun (s : State) : Option (List Response × Bool) :=
  match runToEnd s with
  | .next t => if Ended t then some (observation t) else none
  | .fault _ => none
  | .refused _ => none

/-- The phase an input leaves, where it is no breach of the host protocol. -/
def phaseAfter (p : Phase) : Input → Phase
  | .command w _ => if w = encodeWord .seedEntropy then .waitEntropy else .idle
  | .entropy _ => .idle
  | .readResponse => p
  | .reset => .idle

/-- The host protocol (`60_exceptions.md` R76), from a phase: no command while one is outstanding, and exactly the
payload bytes each word asks for (`30_encoding.md` R34, R40). -/
def hostRespects : Phase → List Input → Bool
  | _, [] => true
  | p, x :: rest =>
    (match x with
      | .command w payload => p == .idle && payload.length == payloadBytes w
      | .entropy _ => true
      | .readResponse => true
      | .reset => true) && hostRespects (phaseAfter p x) rest

/-- The phase a list of inputs leaves. -/
def phaseAfterAll (p : Phase) (xs : List Input) : Phase := xs.foldl phaseAfter p

/-- The sequence of states of a generator: s_(k+1) = lcg(s_k, inc), counted from 0 (`42_output.md` R64). -/
def streamState (s inc : U128) : Nat → U128
  | 0 => s
  | k + 1 => lcg (streamState s inc k) inc

end Sys2Proof.Machine
end

