-- ==== Sys2Proof/Certificates/Slice0/Obligations.lean ====
section
/-! DEFINITION. The statements for the provers: what the commands and the machine do, from the spec's numbered rules. A
result is stated as the next state written out, so that it is also the frame: every element that is not named in a
record update keeps its value, and exec answers that next state. The fields `inputs` and `responses` are the model's own
(log 2, log 4): the response a completed command delivers (R35) is the one added at the end of `responses`. -/

open Sys2Proof Sys2Proof.Machine

/-! ### Reset -/

/-- `70_reset_and_hazards.md` R86. The reset input, at any time: SEEDED, RESP_STATUS, RESP_DATA and PHASE take their
reset values, STATE and INC have no value (a read faults), a waiting SEED_ENTROPY gets no response, a late entropy
answer is ignored, and a recorded protocol violation stays. -/
def Obligations.ResetInputResetsCore : Prop :=
  (∀ (s : State) (rest : List Input), s.inputs = .reset :: rest →
    ∃ t, step s = .next t ∧ t.seeded = false ∧ t.respStatus = 0x00 ∧ t.respData = 0 ∧ t.phase = .idle ∧
      readGenerator t = .error .readWithoutValue ∧ t.responses = s.responses ∧ t.inputs = rest ∧
      ∀ (a : EntropyAnswer) (later : List Input), rest = .entropy a :: later →
        step t = .next { t with inputs := later }) ∧
  (∀ (s : State) (k : ViolationKind) (later : List Input) (n : Nat), step s = .fault (.protocolViolation k) →
    s.inputs ≠ [] ∧ run (n + 1) { s with inputs := s.inputs ++ .reset :: later } = .fault (.protocolViolation k))

/-- `70_reset_and_hazards.md` R87, R88, `10_state.md` R14 to R16, R19: the model starts idle, unseeded, with status OK
and data 0, and no value in STATE or INC. -/
def Obligations.ModelStartsUnseededAndIdle : Prop :=
  State.reset.seeded = false ∧ State.reset.respStatus = 0x00 ∧ State.reset.respData = 0 ∧
    State.reset.phase = .idle ∧ readGenerator State.reset = .error .readWithoutValue ∧
    observation State.reset = ([], false)

/-! ### Seeding -/

/-- `41_seeding.md` R53. SEED_BYTES: its word, its failure below 32 bytes, and on success the generator of the first 32
bytes, SEEDED <- 1 and the response OK. -/
def Obligations.SeedBytesSeedsGenerator : Prop :=
  ∀ (len : Len) (seed : List Byte) (s : State), seed.length = len.toNat →
    decode (0x00000001#32 ||| (len.setWidth 32 <<< 8)) seed = .instr (.seedBytes len seed) [] ∧
    (len.toNat < 32 → exec (.seedBytes len seed) s = .next { s with
        respStatus := 0x01, respData := 0, phase := .idle, responses := s.responses ++ [⟨0x01, 0⟩] }) ∧
    (32 ≤ len.toNat → exec (.seedBytes len seed) s = .next { s with
        state := lcg (le128 (seed.take 16) + (le128 ((seed.drop 16).take 16) ||| 1))
          (le128 ((seed.drop 16).take 16) ||| 1)
        inc := le128 ((seed.drop 16).take 16) ||| 1
        seeded := true
        respStatus := 0x00, respData := 0, phase := .idle, responses := s.responses ++ [⟨0x00, 0⟩] })

/-- `41_seeding.md` R56. The length check, at the command port: below 32 bytes the payload is taken and the seeding is
rejected with nothing derived or written but the response; from 32 bytes on it succeeds. -/
def Obligations.SeedLengthBoundary : Prop :=
  ∀ (len : Len) (seed : List Byte) (s : State) (rest : List Input), seed.length = len.toNat → s.phase = .idle →
    s.inputs = .command (0x00000001#32 ||| (len.setWidth 32 <<< 8)) seed :: rest →
    (len.toNat < 32 → step s = .next { s with
        respStatus := 0x01, respData := 0, inputs := rest, responses := s.responses ++ [⟨0x01, 0⟩] }) ∧
    (32 ≤ len.toNat → ∃ t, step s = .next t ∧ t.respStatus = 0x00 ∧ t.respData = 0 ∧ t.seeded = true ∧
        t.inputs = rest ∧ t.responses = s.responses ++ [⟨0x00, 0⟩])

/-- `41_seeding.md` R54. The seed derivation in exact arithmetic reduced modulo 2^128, for any sequence of at least 32
bytes; bytes from 32 on are not read, and bit 0 of seed[16] is ignored. -/
def Obligations.DeriveFollowsSeedSteps : Prop :=
  (∀ b : List Byte, 32 ≤ b.length →
    (derive b).2 = le128 ((b.drop 16).take 16) ||| 1 ∧
    (derive b).1.toNat =
      (15750249268501108917 * (((le128 (b.take 16)).toNat + (derive b).2.toNat) % 2 ^ 128)
        + (derive b).2.toNat) % 2 ^ 128) ∧
  (∀ b c : List Byte, 32 ≤ b.length → b.take 32 = c.take 32 → derive b = derive c) ∧
  (∀ (b : List Byte) (x : Byte), 32 ≤ b.length → b[16]? = some x → derive (b.set 16 (x ^^^ 1)) = derive b)

/-- `41_seeding.md` R57, `20_memory.md` R26. Bytes from 32 on change nothing, the new generator does not depend on the
old state, and a second SEED_BYTES with the same payload leaves STATE, INC and SEEDED as the first left them. -/
def Obligations.SeedingDependsOnFirst32BytesOnly : Prop :=
  ∀ (len : Len) (seed : List Byte) (s s' : State), seed.length = len.toNat → 32 ≤ len.toNat →
    exec (.seedBytes len seed) s = exec (.seedBytes 32 (seed.take 32)) s ∧
    ∃ t t' t'', exec (.seedBytes len seed) s = .next t ∧ exec (.seedBytes len seed) s' = .next t' ∧
      exec (.seedBytes len seed) t = .next t'' ∧
      t'.state = t.state ∧ t'.inc = t.inc ∧ t'.seeded = t.seeded ∧
      t''.state = t.state ∧ t''.inc = t.inc ∧ t''.seeded = t.seeded

/-- `41_seeding.md` R55. The warm-up cycle: its output is never delivered, and the first NEXT_U64 after a seeding returns
the second generated value. -/
def Obligations.FirstDrawIsSecondGeneratedValue : Prop :=
  ∀ (len : Len) (seed : List Byte) (s : State), seed.length = len.toNat → 32 ≤ len.toNat →
    let inc := le128 ((seed.drop 16).take 16) ||| 1
    let first := cycle (le128 (seed.take 16) + inc) inc
    let second := cycle first.1 inc
    ∃ t t', exec (.seedBytes len seed) s = .next t ∧ t.state = first.1 ∧
      t.responses = s.responses ++ [⟨0x00, 0⟩] ∧
      exec .nextU64 t = .next t' ∧ t'.state = second.1 ∧
      t'.responses = s.responses ++ [⟨0x00, 0⟩, ⟨0x00, second.2⟩]

/-- `41_seeding.md` R58, `60_exceptions.md` R79. SEED_ENTROPY issues its request: only PHASE is written; the wait goes on
while no answer comes; a reset during it abandons the command. The third clause says of every state, an idle one too,
that a step with no input left changes nothing: that is the model's deduction from R79 and R85 (log 3). -/
def Obligations.SeedEntropyIssuesRequest : Prop :=
  (∀ p : List Byte, decode 0x00000002#32 p = .instr .seedEntropy p) ∧
  (∀ s : State, exec .seedEntropy s = .next { s with phase := .waitEntropy }) ∧
  (∀ s : State, s.inputs = [] → step s = .next s) ∧
  (∀ (s : State) (rest : List Input), s.phase = .waitEntropy → s.inputs = .reset :: rest →
    ∃ t, step s = .next t ∧ t.phase = .idle ∧ t.seeded = false ∧ t.responses = s.responses)

/-- `41_seeding.md` R59. A waiting SEED_ENTROPY completes with 32 bytes exactly as SEED_BYTES would with that payload. -/
def Obligations.EntropyBytesCompleteSeeding : Prop :=
  ∀ (s : State) (b : Vector Byte 32) (rest : List Input),
    s.phase = .waitEntropy → s.inputs = .entropy (.ok b) :: rest →
    step s = .next { s with
      state := lcg (le128 (b.toList.take 16) + (le128 (b.toList.drop 16) ||| 1)) (le128 (b.toList.drop 16) ||| 1)
      inc := le128 (b.toList.drop 16) ||| 1
      seeded := true
      respStatus := 0x00, respData := 0, phase := .idle, inputs := rest
      responses := s.responses ++ [⟨0x00, 0⟩] } ∧
    step s = exec (.seedBytes 32 b.toList) { s with inputs := rest }

/-- `41_seeding.md` R60. A waiting SEED_ENTROPY whose source is unavailable answers so, and keeps any old generator. -/
def Obligations.EntropyUnavailableKeepsGenerator : Prop :=
  ∀ (s : State) (rest : List Input), s.phase = .waitEntropy → s.inputs = .entropy .unavailable :: rest →
    step s = .next { s with
      respStatus := 0x02, respData := 0, phase := .idle, inputs := rest
      responses := s.responses ++ [⟨0x02, 0⟩] }

/-- `60_exceptions.md` R79: an answer that arrives while PHASE = IDLE is ignored. -/
def Obligations.UnrequestedEntropyAnswerIsIgnored : Prop :=
  ∀ (s : State) (a : EntropyAnswer) (rest : List Input), s.phase = .idle → s.inputs = .entropy a :: rest →
    step s = .next { s with inputs := rest }

/-! ### Output -/

/-- `42_output.md` R61. NEXT_U64: its word, its result on a seeded and on an unseeded core, and its corners: STATE = 0
advances to INC, any 64-bit value may be returned (for every INC there is a STATE from which it is), the value 0 is
returned exactly when the new STATE's upper half is 0, and two in a row advance STATE twice. -/
def Obligations.NextU64DrawsFromUpdatedState : Prop :=
  (∀ p : List Byte, decode 0x00000010#32 p = .instr .nextU64 p) ∧
  (∀ s : State, s.seeded = true → exec .nextU64 s = .next { s with
      state := lcg s.state s.inc
      respStatus := 0x00, respData := dxsm (lcg s.state s.inc), phase := .idle
      responses := s.responses ++ [⟨0x00, dxsm (lcg s.state s.inc)⟩] }) ∧
  (∀ s : State, s.seeded = false → exec .nextU64 s = .next { s with
      respStatus := 0x04, respData := 0, phase := .idle, responses := s.responses ++ [⟨0x04, 0⟩] }) ∧
  (∀ inc : U128, lcg 0 inc = inc) ∧
  (∀ s t : State, s.seeded = true → exec .nextU64 s = .next t →
    (t.respData = 0 ↔ t.state.toNat < 2 ^ 64)) ∧
  (∀ (s : State) (v : U64), s.seeded = true →
    ∃ (x : U128) (t : State), exec .nextU64 { s with state := x } = .next t ∧ t.respStatus = 0x00 ∧ t.respData = v) ∧
  (∀ s : State, s.seeded = true → ∃ t u, exec .nextU64 s = .next t ∧ exec .nextU64 t = .next u ∧
    u.state = lcg (lcg s.state s.inc) s.inc)

/-- `42_output.md` R62. NEXT_F64: its word, its result on a seeded and on an unseeded core; the same draw as NEXT_U64;
0.0 exactly when u < 2^11; never negative and never 1.0 or above. -/
def Obligations.NextF64DrawsFromUpdatedState : Prop :=
  (∀ p : List Byte, decode 0x00000011#32 p = .instr .nextF64 p) ∧
  (∀ s : State, s.seeded = true → exec .nextF64 s = .next { s with
      state := lcg s.state s.inc
      respStatus := 0x00, respData := f64bits (dxsm (lcg s.state s.inc)), phase := .idle
      responses := s.responses ++ [⟨0x00, f64bits (dxsm (lcg s.state s.inc))⟩] }) ∧
  (∀ s : State, s.seeded = false → exec .nextF64 s = .next { s with
      respStatus := 0x04, respData := 0, phase := .idle, responses := s.responses ++ [⟨0x04, 0⟩] }) ∧
  (∀ s t : State, s.seeded = true → exec .nextF64 s = .next t →
    (t.respData = 0 ↔ (dxsm t.state).toNat < 2 ^ 11) ∧ t.respData.toNat < 0x3FF0000000000000)

/-- `42_output.md` R63. Both output commands on an unseeded core answer NOT_SEEDED, whatever bits STATE and INC hold, and
write nothing but the response. -/
def Obligations.UnseededOutputAnswersNotSeeded : Prop :=
  ∀ (i : Instr) (s : State), i = .nextU64 ∨ i = .nextF64 → s.seeded = false →
    exec i s = .next { s with
      respStatus := 0x04, respData := 0, phase := .idle, responses := s.responses ++ [⟨0x04, 0⟩] }

/-- `20_memory.md` R26, `42_output.md` R61: an output command is never idempotent. On a seeded core that meets the
invariant, each one moves STATE to another value. -/
def Obligations.EveryDrawMovesState : Prop :=
  ∀ (i : Instr) (s : State), s.Inv → s.seeded = true → i = .nextU64 ∨ i = .nextF64 →
    ∃ t, exec i s = .next t ∧ t.state ≠ s.state ∧ t.inc = s.inc

/-! ### State access and illegal words -/

/-- `43_control.md` R65. GETSTATE: always UNSUPPORTED, STATE and INC neither written nor exposed; on an idle core, the
only one a command is presented to, PHASE is not changed either. -/
def Obligations.GetstateAnswersUnsupported : Prop :=
  (∀ p : List Byte, decode 0x00000020#32 p = .instr .getstate p) ∧
  (∀ s : State, exec .getstate s = .next { s with
    respStatus := 0x03, respData := 0, phase := .idle, responses := s.responses ++ [⟨0x03, 0⟩] }) ∧
  (∀ s : State, s.phase = .idle → exec .getstate s = .next { s with
    respStatus := 0x03, respData := 0, responses := s.responses ++ [⟨0x03, 0⟩] })

/-- `43_control.md` R66. SETSTATE: always UNSUPPORTED, STATE, INC and SEEDED unchanged; a NEXT_U64 after it draws what it
would have drawn without it. -/
def Obligations.SetstateAnswersUnsupported : Prop :=
  (∀ p : List Byte, decode 0x00000021#32 p = .instr .setstate p) ∧
  (∀ s : State, exec .setstate s = .next { s with
    respStatus := 0x03, respData := 0, phase := .idle, responses := s.responses ++ [⟨0x03, 0⟩] }) ∧
  (∀ s t u v : State, exec .setstate s = .next t → exec .nextU64 s = .next u → exec .nextU64 t = .next v →
    v.state = u.state ∧ v.inc = u.inc ∧ v.seeded = u.seeded ∧ v.respStatus = u.respStatus ∧ v.respData = u.respData)

/-- `43_control.md` R67, `30_encoding.md` R37, R38. A word with a reserved OPC, or with an OPC other than 0x01 and a
nonzero CMD[31:8], takes no payload, answers ILLEGAL_COMMAND and changes nothing else. For OPC = 0x01 every word is a
SEED_BYTES. -/
def Obligations.IllegalWordsAnswerIllegalCommand : Prop :=
  (∀ (s : State) (w : CmdWord) (rest : List Input),
    (w.toNat % 256 ∉ [0x01, 0x02, 0x10, 0x11, 0x20, 0x21] ∨ (w.toNat % 256 ≠ 0x01 ∧ w.toNat / 256 ≠ 0)) →
    payloadBytes w = 0 ∧
    (s.phase = .idle → s.inputs = .command w [] :: rest →
      step s = .next { s with
        respStatus := 0x05, respData := 0, inputs := rest, responses := s.responses ++ [⟨0x05, 0⟩] })) ∧
  (∀ w : CmdWord, w.toNat % 256 = 0x01 →
    ∃ (len : Len), len.toNat = w.toNat / 256 ∧
      ∀ p : List Byte, p.length = len.toNat → decode w p = .instr (.seedBytes len p) [])

/-! ### Encoding -/

/-- `30_encoding.md` R39. The decoder case by case on OPC = CMD[7:0] and CMD[31:8], and how many of the 2^32 words
decode to what: 2^24 to SEED_BYTES, one to each of the five other commands, the rest to ILLEGAL. -/
def Obligations.DecodeIsTotalAndCounted : Prop :=
  (∀ (w : CmdWord) (p : List Byte),
    if w.toNat % 256 = 0x01 then
      ∃ (len : Len), len.toNat = w.toNat / 256 ∧
        decode w p = .instr (.seedBytes len (p.take len.toNat)) (p.drop len.toNat)
    else if w.toNat / 256 ≠ 0 then ∃ why, decode w p = .illegal why p
    else if w.toNat % 256 = 0x02 then decode w p = .instr .seedEntropy p
    else if w.toNat % 256 = 0x10 then decode w p = .instr .nextU64 p
    else if w.toNat % 256 = 0x11 then decode w p = .instr .nextF64 p
    else if w.toNat % 256 = 0x20 then decode w p = .instr .getstate p
    else if w.toNat % 256 = 0x21 then decode w p = .instr .setstate p
    else ∃ why, decode w p = .illegal why p) ∧
  Nat.count (fun n => (match decode (BitVec.ofNat 32 n) [] with
    | .instr (.seedBytes _ _) _ => true
    | _ => false) = true) (2 ^ 32) = 2 ^ 24 ∧
  (∀ i ∈ [Instr.seedEntropy, .nextU64, .nextF64, .getstate, .setstate],
    Nat.count (fun n => decode (BitVec.ofNat 32 n) [] = .instr i []) (2 ^ 32) = 1) ∧
  Nat.count (fun n => (match decode (BitVec.ofNat 32 n) [] with
    | .instr _ _ => false
    | .illegal _ _ => true) = true) (2 ^ 32) = 2 ^ 32 - 2 ^ 24 - 5

/-- `30_encoding.md` R36 to R40. Decode and encode agree: every well-formed command, with any LEN and any payload, is read
back from its word and payload, and bytes behind the payload are left over. -/
def Obligations.DecodeOfEncode : Prop :=
  ∀ (i : Instr) (rest : List Byte), i.wf = true →
    decode (encodeWord i) (encodePayload i ++ rest) = .instr i rest

/-- `30_encoding.md` R36 to R40. The other direction: whatever word and payload decode to a command are that command's
word and payload, with the bytes left over; and the command is well formed exactly when the payload was not short. -/
def Obligations.EncodeOfDecode : Prop :=
  ∀ (w : CmdWord) (channel rest : List Byte) (i : Instr), decode w channel = .instr i rest →
    encodeWord i = w ∧ encodePayload i ++ rest = channel ∧
    (i.wf = true ↔ payloadBytes w ≤ channel.length)

/-- `30_encoding.md` R36, R38, R39: some words written out from the table. Bits 7..0 are OPC; the rest is LEN or Z. -/
def Obligations.SampleWordsDecode : Prop :=
  decode 0b00000000000000000000001000000001#32 [0xAA, 0xBB] = .instr (.seedBytes 2 [0xAA, 0xBB]) [] ∧
  decode 0b00000000000000000000000000000010#32 [] = .instr .seedEntropy [] ∧
  decode 0b00000000000000000000000000010000#32 [] = .instr .nextU64 [] ∧
  decode 0b00000000000000000000000000010001#32 [] = .instr .nextF64 [] ∧
  decode 0b00000000000000000000000000100000#32 [] = .instr .getstate [] ∧
  decode 0b00000000000000000000000000100001#32 [] = .instr .setstate [] ∧
  decode 0b00000000000000000000000100010000#32 [] = .illegal .nonzeroZ [] ∧
  decode 0b00000000000000000000000000000000#32 [] = .illegal .reservedOpcode []

/-- `20_memory.md` R24, `30_encoding.md` R40. Serialised, RESP_DATA is 8 bytes and a command 4 + its payload's bytes,
each value least significant byte first. -/
def Obligations.SerialisationIsLittleEndian : Prop :=
  (∀ s : State, (respDataBytes s).length = 8 ∧
    ∀ k, k < 8 → (respDataBytes s)[k]? = some (s.respData.extractLsb' (8 * k) 8)) ∧
  (∀ i : Instr, (commandBytes i).length = 4 + (encodePayload i).length ∧
    (commandBytes i).drop 4 = encodePayload i ∧
    ∀ k, k < 4 → (commandBytes i)[k]? = some ((encodeWord i).extractLsb' (8 * k) 8))

/-- `30_encoding.md` R41, R42. What each line encodes, by the table of R41: SEED_BYTES with any payload notation gives the
word 0x01 | (LEN << 8) and the bytes the notation stands for, every other mnemonic its one word and no payload, each of
them exactly one well-formed command; the plain texts are read as these lines. A `.cmd` word is emitted as it is, without
a payload, and one that asks for a payload is then a protocol violation. The model's choices (log 12): a payload with
more bytes than LEN can say gives no encoding, and the `.cmd` words that R42 says assemblers should refuse are emitted
too. -/
def Obligations.AssembledLinesAreSingleCommands : Prop :=
  ((∀ bs, (PayloadText.hex bs).bytes = bs) ∧ (∀ n, (PayloadText.zeros n).bytes = List.replicate n 0x00) ∧
    (∀ n b, (PayloadText.fill n b).bytes = List.replicate n b)) ∧
  (∀ q : PayloadText, q.bytes.length < 2 ^ 24 →
    ∃ (len : Len) (w : CmdWord), len.toNat = q.bytes.length ∧ w.toNat = 0x01 + 256 * q.bytes.length ∧
      assemble (.seedBytes q) = some (w, q.bytes) ∧
      (Instr.seedBytes len q.bytes).wf = true ∧ decode w q.bytes = .instr (.seedBytes len q.bytes) []) ∧
  (∀ q : PayloadText, 2 ^ 24 ≤ q.bytes.length → assemble (.seedBytes q) = none) ∧
  (∀ liw ∈ [(AsmLine.seedEntropy, Instr.seedEntropy, 0x00000002#32), (.nextU64, .nextU64, 0x00000010#32),
      (.nextF64, .nextF64, 0x00000011#32), (.getstate, .getstate, 0x00000020#32),
      (.setstate, .setstate, 0x00000021#32)],
    assemble liw.1 = some (liw.2.2, []) ∧ liw.2.1.wf = true ∧ decode liw.2.2 [] = .instr liw.2.1 []) ∧
  (∀ tl ∈ [("SEED_BYTES x\"\"", AsmLine.seedBytes (.hex [])), ("SEED_BYTES zeros(32)", .seedBytes (.zeros 32)),
      ("SEED_BYTES fill(33, 0xFF)", .seedBytes (.fill 33 0xFF)), ("SEED_ENTROPY", .seedEntropy),
      ("NEXT_U64", .nextU64), ("NEXT_F64", .nextF64), ("GETSTATE", .getstate), ("SETSTATE", .setstate),
      (".cmd 0x80000010", .cmd 0x80000010)],
    parseLine tl.1 = some (some tl.2)) ∧
  (∀ w : CmdWord, assemble (.cmd w) = some (w, [])) ∧
  (∀ (w : CmdWord) (s : State) (rest : List Input), w.toNat % 256 = 0x01 → w.toNat / 256 ≠ 0 →
    s.phase = .idle → s.inputs = .command w [] :: rest → step s = .fault (.protocolViolation .payloadLength))

/-- `30_encoding.md` R41: the hexadecimal payload notation is read two digits per byte, the leftmost pair first. For every
payload, its bytes written so between the quotes are read back as that payload. -/
def Obligations.HexPayloadIsReadLeftmostPairFirst : Prop :=
  ∀ bs : List Byte,
    parsePayload (['x', '"'] ++ bs.flatMap (fun b => hexChars b.toNat 2) ++ ['"']) = some (.hex bs)

/-! ### Datapath -/

/-- `40_datapath.md` R44. LE128 of 16 bytes: the sum of b[i] * 2^(8i), so bits [8i+7:8i] are byte i. -/
def Obligations.LittleEndianAssembly : Prop :=
  ∀ b : List Byte, b.length = 16 →
    (le128 b).toNat = ((List.range 16).map fun i => (b.getD i 0).toNat * 2 ^ (8 * i)).sum ∧
    ∀ i, i < 16 → b[i]? = some ((le128 b).extractLsb' (8 * i) 8)

/-- `40_datapath.md` R45. The LCG transition: exact product and sum reduced modulo 2^128, for every state. -/
def Obligations.LcgIsModular : Prop :=
  ∀ s inc : U128, (lcg s inc).toNat = (15750249268501108917 * s.toNat + inc.toNat) % 2 ^ 128

/-- `40_datapath.md` R46. The half split: the upper 64 bits, and the lower 64 bits with bit 0 forced to 1. -/
def Obligations.HalfSplitForcesOddLow : Prop :=
  ∀ s : U128, (high s).toNat = s.toNat / 2 ^ 64 ∧
    (low s).toNat = s.toNat % 2 ^ 64 ||| 1 ∧ (low s).toNat % 2 = 1

/-- `40_datapath.md` R47. The DXSM permutation stage by stage in exact arithmetic reduced modulo 2^64, and its corner: the
output is 0 exactly when the upper half of the state is 0. -/
def Obligations.DxsmFollowsStages : Prop :=
  ∀ s : U128,
    (let h0 := (high s).toNat
     let h1 := h0 ^^^ (h0 >>> 22)
     let h2 := 15750249268501108917 * h1 % 2 ^ 64
     let h3 := h2 ^^^ (h2 >>> 48)
     (dxsm s).toNat = h3 * (low s).toNat % 2 ^ 64) ∧
    (dxsm s = 0 ↔ s.toNat / 2 ^ 64 = 0)

/-- `40_datapath.md` R48, R51. The float conversion is exact: what it encodes, read as binary64, is m * 2^-53 with
m = u >> 11. The reading of encodings as numbers is the model's `binary64` (R10; log 11). -/
def Obligations.FloatConversionIsExact : Prop :=
  ∀ u : U64, binary64 (f64bits u) = some ((((u >>> 11).toNat : ℕ) : ℚ) / 2 ^ 53)

/-- `40_datapath.md` R51. What the converter can give: +0.0, or a positive normal number from 2^-53 to 1 - 2^-53; never
negative, never -0.0, never subnormal, never infinite, never a NaN; and the value lies in [0, 1 - 2^-53]. -/
def Obligations.FloatRange : Prop :=
  ∀ u : U64, signBit (f64bits u) = false ∧
    (f64bits u = 0 ∨ (970 ≤ biasedExponent (f64bits u) ∧ biasedExponent (f64bits u) ≤ 1022)) ∧
    0 ≤ value u ∧ value u ≤ 1 - 1 / 2 ^ 53

/-- `40_datapath.md` R48. The low 11 bits of u do not affect the result, and all the others do. -/
def Obligations.FloatSeesExactlyTheUpper53Bits : Prop :=
  ∀ u v : U64, f64bits u = f64bits v ↔ u.toNat / 2 ^ 11 = v.toNat / 2 ^ 11

/-- `40_datapath.md` R49. The output selector, for every completion of every run: the 64-bit output, its double, or 0. -/
def Obligations.ResponseDataIsSelected : Prop :=
  ∀ (s t : State) (r : Response), step s = .next t → t.responses = s.responses ++ [r] →
    t.respData = r.data ∧
    (match s.inputs with
      | .command w _ :: _ =>
        if w = 0x00000010#32 ∧ s.seeded = true then r.status = 0x00 ∧ r.data = dxsm t.state
        else if w = 0x00000011#32 ∧ s.seeded = true then r.status = 0x00 ∧ r.data = f64bits (dxsm t.state)
        else r.data = 0
      | _ => r.data = 0)

/-! ### The whole machine -/

/-- `20_memory.md` R28, `30_encoding.md` R34, R39: a step runs the decoded command. With the core idle and the oldest
input a word and payload that decode to a well-formed command, nothing left over, the step is exec of that command with
the input taken. -/
def Obligations.StepRunsDecodedCommand : Prop :=
  ∀ (s : State) (w : CmdWord) (p : List Byte) (rest : List Input) (i : Instr),
    s.phase = .idle → s.inputs = .command w p :: rest → decode w p = .instr i [] → i.wf = true →
    step s = exec i { s with inputs := rest }

/-- `20_memory.md` R26. Reading the response has no side effect. -/
def Obligations.ReadingResponseChangesNothing : Prop :=
  ∀ (s : State) (rest : List Input), s.inputs = .readResponse :: rest → step s = .next { s with inputs := rest }

/-- `60_exceptions.md` R70. Errors are precise, for every step that delivers an error response: STATE, INC and SEEDED are
as before, the data is 0 and PHASE is IDLE. -/
def Obligations.ErrorsArePrecise : Prop :=
  ∀ (s t : State) (r : Response), step s = .next t → t.responses = s.responses ++ [r] → r.status ≠ 0x00 →
    t = { s with
      respStatus := r.status, respData := 0, phase := .idle, inputs := s.inputs.tail
      responses := s.responses ++ [r] } ∧ r.data = 0

/-- `60_exceptions.md` R71. The order of checks: the one status each command answers with, from its word, its payload's
length and SEEDED alone; SEED_ENTROPY answers at its completion only. -/
def Obligations.StatusFollowsOrderOfChecks : Prop :=
  (∀ (s : State) (w : CmdWord) (p : List Byte) (rest : List Input),
    s.phase = .idle → s.inputs = .command w p :: rest → p.length = payloadBytes w →
    (w ≠ 0x00000002#32 → ∃ t, step s = .next t ∧ t.phase = .idle ∧
      t.responses = s.responses ++ [⟨t.respStatus, t.respData⟩] ∧
      t.respStatus = (match decode w p with
        | .illegal _ _ => 0x05
        | .instr .getstate _ => 0x03
        | .instr .setstate _ => 0x03
        | .instr .nextU64 _ => if s.seeded then 0x00 else 0x04
        | .instr .nextF64 _ => if s.seeded then 0x00 else 0x04
        | .instr (.seedBytes len _) _ => if len.toNat < 32 then 0x01 else 0x00
        | .instr .seedEntropy _ => 0x00)) ∧
    (w = 0x00000002#32 → step s = .next { s with phase := .waitEntropy, inputs := rest })) ∧
  (∀ (s : State) (a : EntropyAnswer) (rest : List Input),
    s.phase = .waitEntropy → s.inputs = .entropy a :: rest →
    ∃ t, step s = .next t ∧ t.responses = s.responses ++ [⟨t.respStatus, t.respData⟩] ∧
      (t.respStatus = 0x02 ↔ a = .unavailable) ∧ (t.respStatus = 0x00 ↔ a ≠ .unavailable))

/-- `60_exceptions.md` R75: an error status is not sticky. What a command other than SEED_ENTROPY leaves does not depend
on the response registers it finds. -/
def Obligations.StatusIsNotSticky : Prop :=
  ∀ (i : Instr) (s : State) (st : BitVec 8) (d : U64), i ≠ .seedEntropy →
    exec i { s with respStatus := st, respData := d } = exec i s

/-- `60_exceptions.md` R76. A step faults exactly on a breach of the host protocol: a command while one is outstanding, or
a payload that is not exactly what its word asks for. There is no other fault. That both breaches at once are recorded as
overlap is the model's choice (log 6). -/
def Obligations.FaultsAreProtocolViolations : Prop :=
  ∀ (s : State) (f : Fault), step s = .fault f ↔
    ∃ (w : CmdWord) (p : List Byte) (rest : List Input), s.inputs = .command w p :: rest ∧
      ((s.phase = .waitEntropy ∧ f = .protocolViolation .overlap) ∨
       (s.phase = .idle ∧ p.length ≠ payloadBytes w ∧ f = .protocolViolation .payloadLength))

/-- `10_state.md` R11, R12: no step reads STATE or INC while they have no value, and (the model's own) none is refused. -/
def Obligations.NoStepReadsWithoutValue : Prop :=
  ∀ s : State, step s ≠ .fault .readWithoutValue ∧ ∀ r, step s ≠ .refused r

/-- `10_state.md` R13, R15, R16: the state after reset meets the invariant. -/
def Obligations.ResetMeetsInvariant : Prop := State.reset.Inv

/-- `10_state.md` R13, R15, `60_exceptions.md` R69: every step keeps the invariant: INC odd whenever SEEDED = 1,
RESP_STATUS one of the six codes, data 0 with every error, in every response delivered as well. -/
def Obligations.StepKeepsInvariant : Prop :=
  ∀ s t : State, s.Inv → step s = .next t → t.Inv

/-- `10_state.md` R14. Who writes SEEDED: reset clears it, a successful SEED_BYTES or SEED_ENTROPY sets it, and no other
event changes it. -/
def Obligations.SeededIsWrittenBySeedingAndReset : Prop :=
  ∀ s t : State, step s = .next t →
    match s.inputs with
    | [] => t.seeded = s.seeded
    | .reset :: _ => t.seeded = false
    | .readResponse :: _ => t.seeded = s.seeded
    | .entropy (.ok _) :: _ => t.seeded = (s.seeded || s.phase == .waitEntropy)
    | .entropy .unavailable :: _ => t.seeded = s.seeded
    | .command w p :: _ => t.seeded = (s.seeded || (w.toNat % 256 == 0x01 && decide (32 ≤ p.length)))

/-- `10_state.md` R12. Who writes INC: reset, a successful SEED_BYTES, or an entropy answer that completes a
SEED_ENTROPY; every other step leaves it. -/
def Obligations.IncIsWrittenBySeedingAndReset : Prop :=
  ∀ s t : State, step s = .next t → t.inc ≠ s.inc →
    (∃ rest, s.inputs = .reset :: rest) ∨
    (∃ w p rest, s.inputs = .command w p :: rest ∧ w.toNat % 256 = 0x01 ∧ 32 ≤ p.length ∧ t.respStatus = 0x00) ∨
    (∃ b rest, s.inputs = .entropy (.ok b) :: rest ∧ s.phase = .waitEntropy ∧ t.respStatus = 0x00)

/-- `10_state.md` R11. Who writes STATE: reset, a successful seeding, or a successful NEXT_U64 or NEXT_F64, which advances
it by the transition; every other step leaves it. -/
def Obligations.StateIsWrittenBySeedingDrawsAndReset : Prop :=
  ∀ s t : State, step s = .next t → t.state ≠ s.state →
    (∃ rest, s.inputs = .reset :: rest) ∨
    (∃ w p rest, s.inputs = .command w p :: rest ∧ w.toNat % 256 = 0x01 ∧ 32 ≤ p.length ∧ t.respStatus = 0x00) ∨
    (∃ b rest, s.inputs = .entropy (.ok b) :: rest ∧ s.phase = .waitEntropy ∧ t.respStatus = 0x00) ∨
    (∃ w rest, s.inputs = .command w [] :: rest ∧ (w = 0x00000010#32 ∨ w = 0x00000011#32) ∧ s.seeded = true ∧
      t.respStatus = 0x00 ∧ t.state = lcg s.state s.inc)

/-- `10_state.md` R15, R16, R19, `70_reset_and_hazards.md` R90. When the response registers and PHASE are written: at a
completion, which delivers them as the response and leaves PHASE IDLE, and at reset; the issue of SEED_ENTROPY writes
PHASE alone; no other step writes any of them. -/
def Obligations.ResponseIsWrittenAtCompletionAndReset : Prop :=
  ∀ s t : State, step s = .next t →
    (t.responses = s.responses ++ [⟨t.respStatus, t.respData⟩] ∧ t.phase = .idle) ∨
    ((∃ rest, s.inputs = .reset :: rest) ∧ t.responses = s.responses ∧ t.respStatus = 0x00 ∧ t.respData = 0 ∧
      t.phase = .idle) ∨
    (t.responses = s.responses ∧ t.respStatus = s.respStatus ∧ t.respData = s.respData ∧
      (t.phase = s.phase ∨ ((∃ rest, s.inputs = .command 0x00000002#32 [] :: rest) ∧ t.phase = .waitEntropy)))

/-- `30_encoding.md` R35: exactly one response follows each command word. Over every run without a reset, the responses
delivered and the command still outstanding account for the commands presented, one each. -/
def Obligations.OneResponsePerCommand : Prop :=
  ∀ s t : State, .reset ∉ s.inputs → runInputs s = .next t →
    t.responses.length + (if t.phase = .waitEntropy then 1 else 0) =
      s.responses.length + (if s.phase = .waitEntropy then 1 else 0) +
        s.inputs.countP (fun x => match x with
          | .command _ _ => true
          | .entropy _ => false
          | .readResponse => false
          | .reset => false)

/-- `60_exceptions.md` R76, R79, `70_reset_and_hazards.md` R93. A run over all the inputs goes through exactly when the
host respects its protocol, and then every input is taken and PHASE tells whether a SEED_ENTROPY still waits; otherwise
the run ends in a protocol violation. -/
def Obligations.RespectfulHostRunsThrough : Prop :=
  ∀ s : State,
    (hostRespects s.phase s.inputs = true →
      ∃ t, runInputs s = .next t ∧ t.inputs = [] ∧ t.phase = phaseAfterAll s.phase s.inputs ∧
        (Ended t ↔ phaseAfterAll s.phase s.inputs = .idle)) ∧
    (hostRespects s.phase s.inputs = false → ∃ k, runInputs s = .fault (.protocolViolation k))

/-- `70_reset_and_hazards.md` R93. The end of a run and its observation. A run that respects the host protocol is taken
step by step up to the first state in which it has ended, with no command still to come and PHASE = IDLE, and what is
observed there is its responses and SEEDED; driving the machine over the inputs after it would add no response. Else no
input is left and the core waits for an entropy answer, and the run is not over. Of a run with a protocol violation
nothing is observed. That inputs after that state, a reset among them, are not taken, and that an idle core with a reset
and no command to come is observed before the reset, is the model's reading of R93 and not its words (log 17, DEDUCED). -/
def Obligations.RunIsObservedWhereItEnds : Prop :=
  (∀ s : State, Ended s ↔ (∀ w p, .command w p ∉ s.inputs) ∧ s.phase = .idle) ∧
  (∀ s : State, hostRespects s.phase s.inputs = true →
    ∃ (k : Nat) (t : State), k ≤ s.inputs.length ∧ run k s = .next t ∧ runToEnd s = .next t ∧
      (∀ j < k, ∃ u, run j s = .next u ∧ ¬ Ended u) ∧
      ((Ended t ∧ observedRun s = some (t.responses, t.seeded)) ∨
       (t.inputs = [] ∧ t.phase = .waitEntropy ∧ observedRun s = none)) ∧
      ∃ u, runInputs s = .next u ∧ u.responses = t.responses) ∧
  (∀ s : State, hostRespects s.phase s.inputs = false →
    observedRun s = none ∧ ∃ k, runToEnd s = .fault (.protocolViolation k)) ∧
  (∀ (s : State) (later : List Input), s.phase = .idle → s.inputs = .reset :: later →
    later.any Input.isCommand = false → observedRun s = some (s.responses, s.seeded))

/-- `20_memory.md` R28. Commands complete in the order presented: running a sequence of inputs is running its first part
and then, from the state that left, the rest. -/
def Obligations.RunsComposeInOrder : Prop :=
  ∀ (s t : State) (xs ys : List Input), runInputs { s with inputs := xs } = .next t →
    runInputs { s with inputs := xs ++ ys } = runInputs { t with inputs := ys }

/-- `42_output.md` R64, the sequence law. From a seeded idle core, over any inputs that respect the host protocol and
contain no reset, no SEED_ENTROPY and no SEED_BYTES of 32 bytes or more (unrequested entropy answers, response reads,
failing seedings, GETSTATE, SETSTATE and illegal words among them count for nothing), the k-th NEXT_U64 or NEXT_F64
answers OK with dxsm(s_(k+1)), or its double, where s_1 is the STATE at the start and s_(k+1) = lcg(s_k, INC); every
other response is an error, and STATE ends as many transitions on as there were draws. -/
def Obligations.SequenceLaw : Prop :=
  ∀ s : State, s.seeded = true → s.phase = .idle → hostRespects .idle s.inputs = true →
    (∀ x ∈ s.inputs, match x with
      | .command w p => w ≠ 0x00000002#32 ∧ (w.toNat % 256 = 0x01 → p.length < 32)
      | .entropy _ => True
      | .readResponse => True
      | .reset => False) →
    let draws : List CmdWord := s.inputs.filterMap fun x => match x with
      | .command w _ => if w = 0x00000010#32 ∨ w = 0x00000011#32 then some w else none
      | .entropy _ => none
      | .readResponse => none
      | .reset => none
    ∃ (t : State) (delivered : List Response), runInputs s = .next t ∧
      t.state = streamState s.state s.inc draws.length ∧ t.inc = s.inc ∧ t.seeded = true ∧
      t.responses = s.responses ++ delivered ∧
      delivered.filter (fun r => r.status == 0x00) =
        (draws.zipIdx 1).map fun wk =>
          let u := dxsm (streamState s.state s.inc wk.2)
          ⟨0x00, if wk.1 = 0x00000010#32 then u else f64bits u⟩

/-- `10_state.md` R11, R12, `93_implementation_defined.md` U6: STATE and INC of an unseeded core have no value. Whatever
bits the model keeps there (log 1), no run observes them: the responses, SEEDED, PHASE, the response registers and the
way a run ends are the same for all of them, and once the core is seeded so are STATE and INC. -/
def Obligations.UnseededBitsAreNeverObserved : Prop :=
  ∀ (n : Nat) (s : State) (x y : U128), s.seeded = false →
    match run n s, run n { s with state := x, inc := y } with
    | .next t, .next t' => t' = { t with state := t'.state, inc := t'.inc } ∧
        (t.seeded = true → t' = t)
    | .fault f, .fault f' => f = f'
    | _, _ => False
end

