-- ==== Sys2Proof/Laws/Decode.lean ====
section
/-! SUPPORT. Small lemmas of the decoder's and the encoder's fields. -/

namespace Sys2Proof

theorem opcField_toNat (w : CmdWord) : (opcField w).toNat = w.toNat % 256 := by
  simp [opcField]

theorem lenField_toNat (w : CmdWord) : (lenField w).toNat = w.toNat / 256 := by
  have h := w.isLt
  simp [lenField, Nat.shiftRight_eq_div_pow]
  omega

/-- A SEED_BYTES word is 1 + 256 * LEN (`30_encoding.md` R36). -/
theorem seedBytes_word_toNat (len : Len) (p : List Byte) :
    (encodeWord (.seedBytes len p)).toNat = 1 + 256 * len.toNat := by
  have h : len.toNat < 2 ^ 24 := len.isLt
  have h1 : (len.toNat <<< 8) % 4294967296 = 2 ^ 8 * len.toNat := by
    rw [Nat.shiftLeft_eq]; omega
  have h2 : (len.setWidth 32).toNat = len.toNat := by simp; omega
  rw [encodeWord, BitVec.toNat_or, BitVec.toNat_shiftLeft, h2, h1, Nat.or_comm]
  rw [← Nat.two_pow_add_eq_or_of_lt (by decide : (1#32).toNat < 2 ^ 8)]
  simp; omega

theorem opcField_seedBytes (len : Len) (p : List Byte) :
    opcField (encodeWord (.seedBytes len p)) = OPC_SEED_BYTES := by
  apply BitVec.eq_of_toNat_eq
  rw [opcField_toNat, seedBytes_word_toNat]
  simp [OPC_SEED_BYTES]

theorem lenField_seedBytes (len : Len) (p : List Byte) :
    lenField (encodeWord (.seedBytes len p)) = len := by
  apply BitVec.eq_of_toNat_eq
  rw [lenField_toNat, seedBytes_word_toNat]
  omega

@[simp] theorem bytesLE_length {w : Nat} (v : BitVec w) (n : Nat) : (bytesLE v n).length = n := by
  induction n generalizing v with
  | zero => rfl
  | succ n ih => simp [bytesLE, ih]

@[simp] theorem natBytes_length (w n : Nat) : (natBytes w n).length = n := by
  induction n generalizing w with
  | zero => rfl
  | succ n ih => simp [natBytes, ih]

end Sys2Proof
end

