-- ==== Sys2Proof/Laws/State.lean ====
section
/-! SUPPORT. One lemma per field per update, so that no proof unfolds a record update. -/

namespace Sys2Proof.Machine

variable (s : State) (st : Status) (d : U64) (g : U128 × U128) (v : U128)

@[simp] theorem respond_state : (respond st d s).state = s.state := rfl
@[simp] theorem respond_inc : (respond st d s).inc = s.inc := rfl
@[simp] theorem respond_seeded : (respond st d s).seeded = s.seeded := rfl
@[simp] theorem respond_respStatus : (respond st d s).respStatus = st.code := rfl
@[simp] theorem respond_respData : (respond st d s).respData = d := rfl
@[simp] theorem respond_phase : (respond st d s).phase = .idle := rfl
@[simp] theorem respond_inputs : (respond st d s).inputs = s.inputs := rfl
@[simp] theorem respond_responses : (respond st d s).responses = s.responses ++ [⟨st.code, d⟩] := rfl

@[simp] theorem raiseError_state : (raiseError st s).state = s.state := rfl
@[simp] theorem raiseError_inc : (raiseError st s).inc = s.inc := rfl
@[simp] theorem raiseError_seeded : (raiseError st s).seeded = s.seeded := rfl
@[simp] theorem raiseError_respStatus : (raiseError st s).respStatus = st.code := rfl
@[simp] theorem raiseError_respData : (raiseError st s).respData = 0 := rfl
@[simp] theorem raiseError_phase : (raiseError st s).phase = .idle := rfl
@[simp] theorem raiseError_inputs : (raiseError st s).inputs = s.inputs := rfl
@[simp] theorem raiseError_responses : (raiseError st s).responses = s.responses ++ [⟨st.code, 0⟩] := rfl

@[simp] theorem writeGenerator_state : (writeGenerator g s).state = g.1 := rfl
@[simp] theorem writeGenerator_inc : (writeGenerator g s).inc = g.2 := rfl
@[simp] theorem writeGenerator_seeded : (writeGenerator g s).seeded = true := rfl
@[simp] theorem writeGenerator_respStatus : (writeGenerator g s).respStatus = s.respStatus := rfl
@[simp] theorem writeGenerator_respData : (writeGenerator g s).respData = s.respData := rfl
@[simp] theorem writeGenerator_phase : (writeGenerator g s).phase = s.phase := rfl
@[simp] theorem writeGenerator_inputs : (writeGenerator g s).inputs = s.inputs := rfl
@[simp] theorem writeGenerator_responses : (writeGenerator g s).responses = s.responses := rfl

@[simp] theorem writeState_state : (writeState v s).state = v := rfl
@[simp] theorem writeState_inc : (writeState v s).inc = s.inc := rfl
@[simp] theorem writeState_seeded : (writeState v s).seeded = s.seeded := rfl
@[simp] theorem writeState_respStatus : (writeState v s).respStatus = s.respStatus := rfl
@[simp] theorem writeState_respData : (writeState v s).respData = s.respData := rfl
@[simp] theorem writeState_phase : (writeState v s).phase = s.phase := rfl
@[simp] theorem writeState_inputs : (writeState v s).inputs = s.inputs := rfl
@[simp] theorem writeState_responses : (writeState v s).responses = s.responses := rfl

@[simp] theorem requestEntropy_state : (requestEntropy s).state = s.state := rfl
@[simp] theorem requestEntropy_inc : (requestEntropy s).inc = s.inc := rfl
@[simp] theorem requestEntropy_seeded : (requestEntropy s).seeded = s.seeded := rfl
@[simp] theorem requestEntropy_respStatus : (requestEntropy s).respStatus = s.respStatus := rfl
@[simp] theorem requestEntropy_respData : (requestEntropy s).respData = s.respData := rfl
@[simp] theorem requestEntropy_phase : (requestEntropy s).phase = .waitEntropy := rfl
@[simp] theorem requestEntropy_inputs : (requestEntropy s).inputs = s.inputs := rfl
@[simp] theorem requestEntropy_responses : (requestEntropy s).responses = s.responses := rfl

@[simp] theorem resetCore_seeded : (resetCore s).seeded = false := rfl
@[simp] theorem resetCore_respStatus : (resetCore s).respStatus = 0x00 := rfl
@[simp] theorem resetCore_respData : (resetCore s).respData = 0 := rfl
@[simp] theorem resetCore_phase : (resetCore s).phase = .idle := rfl
@[simp] theorem resetCore_inputs : (resetCore s).inputs = s.inputs := rfl
@[simp] theorem resetCore_responses : (resetCore s).responses = s.responses := rfl

end Sys2Proof.Machine
end

