-- ==== Sys2Proof/Laws/Ops.lean ====
section
/-! SUPPORT. What each shared operation can do, said once: the status codes, the generator's one read, a seeding, a
draw. -/

namespace Sys2Proof.Machine

@[simp] theorem ofCode_code (st : Status) : Status.ofCode st.code = some st := by
  cases st <;> rfl

@[simp] theorem legalCode_code (st : Status) : legalCode st.code = true := by
  simp [legalCode]

theorem code_injective {a b : Status} (h : a.code = b.code) : a = b := by
  simpa using congrArg Status.ofCode h

theorem code_eq_ok_iff (st : Status) : st.code = Status.ok.code ↔ st = .ok :=
  ⟨code_injective, fun h => h ▸ rfl⟩

@[simp] theorem readGenerator_of_seeded {s : State} (h : s.seeded = true) :
    readGenerator s = .ok (s.state, s.inc) := by simp [readGenerator, h]

@[simp] theorem readGenerator_of_unseeded {s : State} (h : s.seeded = false) :
    readGenerator s = .error .readWithoutValue := by simp [readGenerator, h]

/-- A derived increment is odd (`41_seeding.md` R54). -/
theorem seedIncrement_odd (b : List Byte) : (seedIncrement b).getLsbD 0 = true := by
  simp [seedIncrement]

@[simp] theorem seedWith_state (b : List Byte) (s : State) : (seedWith b s).state = (derive b).1 := rfl
@[simp] theorem seedWith_inc (b : List Byte) (s : State) : (seedWith b s).inc = seedIncrement b := rfl
@[simp] theorem seedWith_seeded (b : List Byte) (s : State) : (seedWith b s).seeded = true := rfl
@[simp] theorem seedWith_respStatus (b : List Byte) (s : State) :
    (seedWith b s).respStatus = Status.ok.code := rfl
@[simp] theorem seedWith_respData (b : List Byte) (s : State) : (seedWith b s).respData = 0 := rfl
@[simp] theorem seedWith_phase (b : List Byte) (s : State) : (seedWith b s).phase = .idle := by
  simp [seedWith]
@[simp] theorem seedWith_inputs (b : List Byte) (s : State) : (seedWith b s).inputs = s.inputs := by
  simp [seedWith]
@[simp] theorem seedWith_responses (b : List Byte) (s : State) :
    (seedWith b s).responses = s.responses ++ [⟨Status.ok.code, 0⟩] := by
  simp [seedWith]

/-- A draw never faults: the SEEDED check precedes the read (`42_output.md` R63). -/
theorem draw_eq (cmd : Instr) (s : State) :
    draw cmd s = .next (if s.seeded then
      respond .ok (select cmd .ok (dxsm (lcg s.state s.inc))) (writeState (lcg s.state s.inc) s)
      else raiseError .notSeeded s) := by
  cases h : s.seeded <;> simp [draw, h, cycle]

@[simp] theorem select_nextU64 (u : U64) : select .nextU64 .ok u = u := by simp [select]
@[simp] theorem select_nextF64 (u : U64) : select .nextF64 .ok u = f64bits u := by simp [select]

end Sys2Proof.Machine
end

