-- ==== Sys2Proof/Laws/Exec.lean ====
section
/-! SUPPORT. What exec can do, said once: one equation per command, and the inversion of a next state. -/

namespace Sys2Proof.Machine

theorem exec_seedBytes_mismatch {len : Len} {p : List Byte} (s : State) (h : p.length ≠ len.toNat) :
    exec (.seedBytes len p) s = .fault (.protocolViolation .payloadLength) := by
  simp [exec, execSeedBytes, h]

theorem exec_seedBytes_short {len : Len} {p : List Byte} (s : State) (h : p.length = len.toNat)
    (hl : len.toNat < 32) : exec (.seedBytes len p) s = .next (raiseError .invalidSeedLength s) := by
  simp [exec, execSeedBytes, h, SEED_MIN, hl]

theorem exec_seedBytes_long {len : Len} {p : List Byte} (s : State) (h : p.length = len.toNat)
    (hl : 32 ≤ len.toNat) : exec (.seedBytes len p) s = .next (seedWith p s) := by
  simp [exec, execSeedBytes, h, SEED_MIN, Nat.not_lt.mpr hl]

theorem exec_seedEntropy (s : State) : exec .seedEntropy s = .next (requestEntropy s) := rfl

theorem exec_nextU64 (s : State) : exec .nextU64 s = draw .nextU64 s := rfl

theorem exec_nextF64 (s : State) : exec .nextF64 s = draw .nextF64 s := rfl

theorem exec_getstate (s : State) : exec .getstate s = .next (raiseError .unsupported s) := rfl

theorem exec_setstate (s : State) : exec .setstate s = .next (raiseError .unsupported s) := rfl

/-- The next states exec can answer, each with its guard. -/
theorem exec_next_cases {i : Instr} {s t : State} (h : exec i s = .next t) :
    (∃ len p, i = .seedBytes len p ∧ p.length = len.toNat ∧ len.toNat < 32 ∧
      t = raiseError .invalidSeedLength s) ∨
    (∃ len p, i = .seedBytes len p ∧ p.length = len.toNat ∧ 32 ≤ len.toNat ∧ t = seedWith p s) ∨
    (i = .seedEntropy ∧ t = requestEntropy s) ∨
    ((i = .nextU64 ∨ i = .nextF64) ∧ s.seeded = true ∧
      t = respond .ok (select i .ok (dxsm (lcg s.state s.inc))) (writeState (lcg s.state s.inc) s)) ∨
    ((i = .nextU64 ∨ i = .nextF64) ∧ s.seeded = false ∧ t = raiseError .notSeeded s) ∨
    ((i = .getstate ∨ i = .setstate) ∧ t = raiseError .unsupported s) := by
  cases i with
  | seedBytes len p =>
    by_cases hp : p.length = len.toNat
    · rcases Nat.lt_or_ge len.toNat 32 with hl | hl
      · rw [exec_seedBytes_short s hp hl] at h
        exact .inl ⟨len, p, rfl, hp, hl, by simpa using h.symm⟩
      · rw [exec_seedBytes_long s hp hl] at h
        exact .inr (.inl ⟨len, p, rfl, hp, hl, by simpa using h.symm⟩)
    · simp [exec_seedBytes_mismatch s hp] at h
  | seedEntropy =>
    rw [exec_seedEntropy] at h
    exact .inr (.inr (.inl ⟨rfl, by simpa using h.symm⟩))
  | nextU64 =>
    rw [exec_nextU64, draw_eq] at h
    cases hs : s.seeded <;> simp [hs] at h <;> simp [h]
  | nextF64 =>
    rw [exec_nextF64, draw_eq] at h
    cases hs : s.seeded <;> simp [hs] at h <;> simp [h]
  | getstate =>
    rw [exec_getstate] at h
    exact .inr (.inr (.inr (.inr (.inr ⟨.inl rfl, by simpa using h.symm⟩))))
  | setstate =>
    rw [exec_setstate] at h
    exact .inr (.inr (.inr (.inr (.inr ⟨.inr rfl, by simpa using h.symm⟩))))

/-- exec leaves the inputs still to come. -/
theorem exec_inputs {i : Instr} {s t : State} (h : exec i s = .next t) : t.inputs = s.inputs := by
  rcases exec_next_cases h with ⟨_, _, _, _, _, rfl⟩ | ⟨_, _, _, _, _, rfl⟩ | ⟨_, rfl⟩ | ⟨_, _, rfl⟩ |
    ⟨_, _, rfl⟩ | ⟨_, rfl⟩ <;> rfl

/-- What exec answers other than a next state: a short payload's fault, of a SEED_BYTES. -/
theorem exec_fault_cases {i : Instr} {s : State} {f : Fault} (h : exec i s = .fault f) :
    ∃ len p, i = .seedBytes len p ∧ p.length ≠ len.toNat ∧ f = .protocolViolation .payloadLength := by
  cases i with
  | seedBytes len p =>
    by_cases hp : p.length = len.toNat
    · rcases Nat.lt_or_ge len.toNat 32 with hl | hl
      · simp [exec_seedBytes_short s hp hl] at h
      · simp [exec_seedBytes_long s hp hl] at h
    · rw [exec_seedBytes_mismatch s hp] at h
      exact ⟨len, p, rfl, hp, by simpa using h.symm⟩
  | seedEntropy => simp [exec_seedEntropy] at h
  | nextU64 => simp [exec_nextU64, draw_eq] at h
  | nextF64 => simp [exec_nextF64, draw_eq] at h
  | getstate => simp [exec_getstate] at h
  | setstate => simp [exec_setstate] at h

end Sys2Proof.Machine
end

