-- ==== Sys2Proof/Laws/PerInstr.lean ====
section
/-! SUPPORT. Statements made per instruction (LAWS.json). PayloadCount: the payload length the decoder tells from a
well-formed command's word alone is the length of the payload it comes with (`30_encoding.md` R40). -/

namespace Sys2Proof.Laws.PayloadCount

def Statement (i : Instr) : Prop :=
  i.wf = true → payloadBytes (encodeWord i) = (encodePayload i).length

theorem seedBytes (len : Len) (payload : List Byte) : Statement (.seedBytes len payload) := by
  intro h
  have h' : payload.length = len.toNat := by simpa [Instr.wf] using h
  simp [payloadBytes, opcField_seedBytes, lenField_seedBytes, encodePayload, h']

theorem seedEntropy : Statement .seedEntropy := fun _ => rfl

theorem nextU64 : Statement .nextU64 := fun _ => rfl

theorem nextF64 : Statement .nextF64 := fun _ => rfl

theorem getstate : Statement .getstate := fun _ => rfl

theorem setstate : Statement .setstate := fun _ => rfl

end Sys2Proof.Laws.PayloadCount
end

