-- ==== Sys2Proof/Laws/Step.lean ====
section
/-! SUPPORT. What a step can do, said once: by the oldest input, and the inversion of an accepted command. -/

namespace Sys2Proof.Machine

theorem step_of_nil {s : State} (h : s.inputs = []) : step s = .next s := by simp [step, h]

theorem step_of_cons {s : State} {x : Input} {rest : List Input} (h : s.inputs = x :: rest) :
    step s = takeInput x { s with inputs := rest } := by simp [step, h]

@[simp] theorem takeInput_command (w : CmdWord) (p : List Byte) (s : State) :
    takeInput (.command w p) s = acceptCommand w p s := rfl
@[simp] theorem takeInput_entropy (a : EntropyAnswer) (s : State) :
    takeInput (.entropy a) s = acceptEntropy a s := rfl
@[simp] theorem takeInput_readResponse (s : State) : takeInput .readResponse s = .next s := rfl
@[simp] theorem takeInput_reset (s : State) : takeInput .reset s = .next (resetCore s) := rfl

theorem acceptCommand_overlap (w : CmdWord) (p : List Byte) {s : State} (h : s.phase = .waitEntropy) :
    acceptCommand w p s = .fault (.protocolViolation .overlap) := by simp [acceptCommand, h]

theorem acceptEntropy_idle (a : EntropyAnswer) {s : State} (h : s.phase = .idle) :
    acceptEntropy a s = .next s := by simp [acceptEntropy, h]

theorem acceptEntropy_ok (b : Vector Byte Config.ENT_REQ) {s : State} (h : s.phase = .waitEntropy) :
    acceptEntropy (.ok b) s = .next (seedWith b.toList s) := by simp [acceptEntropy, completeEntropy, h]

theorem acceptEntropy_unavailable {s : State} (h : s.phase = .waitEntropy) :
    acceptEntropy .unavailable s = .next (raiseError .entropyUnavailable s) := by
  simp [acceptEntropy, completeEntropy, h]

/-- A command accepted to a next state: the core was idle, the payload was taken whole, and the word was executed as the
command it decodes to or as an illegal word. -/
theorem acceptCommand_next_cases {w : CmdWord} {p : List Byte} {s t : State}
    (h : acceptCommand w p s = .next t) :
    s.phase = .idle ∧
    ((∃ i, decode w p = .instr i [] ∧ exec i s = .next t) ∨
     (∃ why, decode w p = .illegal why [] ∧ t = raiseError .illegalCommand s)) := by
  cases hp : s.phase with
  | waitEntropy => simp [acceptCommand, hp] at h
  | idle =>
    refine ⟨rfl, ?_⟩
    cases hd : decode w p with
    | instr i rest =>
      by_cases hr : rest = []
      · subst hr
        simp only [acceptCommand, hp, hd, if_true] at h
        exact .inl ⟨i, rfl, by simpa using h⟩
      · simp [acceptCommand, hp, hd, hr] at h
    | illegal why rest =>
      by_cases hr : rest = []
      · subst hr
        exact .inr ⟨why, rfl, by simpa [acceptCommand, hp, hd, execIllegal] using h.symm⟩
      · simp [acceptCommand, hp, hd, hr] at h

/-- An entropy answer's next states (`60_exceptions.md` R79). -/
theorem acceptEntropy_next_cases {a : EntropyAnswer} {s t : State} (h : acceptEntropy a s = .next t) :
    (s.phase = .idle ∧ t = s) ∨
    (s.phase = .waitEntropy ∧
      ((∃ b, a = .ok b ∧ t = seedWith b.toList s) ∨
       (a = .unavailable ∧ t = raiseError .entropyUnavailable s))) := by
  cases hp : s.phase with
  | idle => rw [acceptEntropy_idle a hp] at h; exact .inl ⟨rfl, by simpa using h.symm⟩
  | waitEntropy =>
    refine .inr ⟨rfl, ?_⟩
    cases a with
    | ok b => rw [acceptEntropy_ok b hp] at h; exact .inl ⟨b, rfl, by simpa using h.symm⟩
    | unavailable => rw [acceptEntropy_unavailable hp] at h; exact .inr ⟨rfl, by simpa using h.symm⟩

/-- The next states of a step, by the oldest input. -/
theorem step_next_cases {s t : State} (h : step s = .next t) :
    (s.inputs = [] ∧ t = s) ∨
    ∃ x rest, s.inputs = x :: rest ∧ takeInput x { s with inputs := rest } = .next t := by
  cases hi : s.inputs with
  | nil => rw [step_of_nil hi] at h; exact .inl ⟨rfl, by simpa using h.symm⟩
  | cons x rest => rw [step_of_cons hi] at h; exact .inr ⟨x, rest, rfl, h⟩

@[simp] theorem run_zero (s : State) : run 0 s = .next s := rfl

theorem run_succ_of_next {n : Nat} {s t : State} (h : step s = .next t) : run (n + 1) s = run n t := by
  simp [run, h]

theorem run_succ_of_fault {n : Nat} {s : State} {f : Fault} (h : step s = .fault f) :
    run (n + 1) s = .fault f := by simp [run, h]

theorem ended_of_nil {s : State} (hi : s.inputs = []) (hp : s.phase = .idle) : Ended s :=
  ⟨by simp [hi], hp⟩

theorem not_ended_of_waiting {s : State} (h : s.phase = .waitEntropy) : ¬ Ended s :=
  fun e => nomatch h.symm.trans e.2

/-- What a run up to its end can do: stand where it has ended, go on by a step, or stop with it. -/
theorem runUntilEnd_of_ended (n : Nat) {s : State} (h : Ended s) : runUntilEnd n s = .next s := by
  cases n with
  | zero => rfl
  | succ n => rw [runUntilEnd, if_pos h]

theorem runUntilEnd_of_next {n : Nat} {s t : State} (he : ¬ Ended s) (h : step s = .next t) :
    runUntilEnd (n + 1) s = runUntilEnd n t := by rw [runUntilEnd, if_neg he, h]

theorem runUntilEnd_of_fault {n : Nat} {s : State} {f : Fault} (he : ¬ Ended s) (h : step s = .fault f) :
    runUntilEnd (n + 1) s = .fault f := by rw [runUntilEnd, if_neg he, h]

/-- From a state in which the run has ended, a step presents no command, completes nothing, and leaves the run ended. -/
theorem step_of_ended {s : State} (h : Ended s) :
    ∃ t, step s = .next t ∧ t.inputs = s.inputs.tail ∧ t.responses = s.responses ∧ Ended t := by
  obtain ⟨hc, hp⟩ := h
  cases hi : s.inputs with
  | nil => exact ⟨s, step_of_nil hi, hi, rfl, ended_of_nil hi hp⟩
  | cons x rest =>
    rw [hi, List.any_cons, Bool.or_eq_false_iff] at hc
    rw [step_of_cons hi]
    cases x with
    | command w p => simp [Input.isCommand] at hc
    | entropy a => exact ⟨_, acceptEntropy_idle a hp, rfl, rfl, hc.2, hp⟩
    | readResponse => exact ⟨_, rfl, rfl, rfl, hc.2, hp⟩
    | reset => exact ⟨_, rfl, rfl, rfl, hc.2, rfl⟩

end Sys2Proof.Machine
end

