-- ==== Sys2Proof/Tests/Slice0.lean ====
section
/-! SUPPORT. Tests of the model, and for every statement of Obligations.lean with hypotheses a witness that meets them
(witness_<statement>). Expected values come from `95_test_vectors.md`, from the worked examples of the rules, or from
hand calculation; each test names its source. -/

namespace Sys2Proof.Tests

open Sys2Proof Sys2Proof.Machine

/-! ### Helpers -/

/-- n copies of a byte. -/
def fill (n : Nat) (b : Byte) : List Byte := List.replicate n b

/-- The bytes 0x00, 0x01, … up to n-1. -/
def counting (n : Nat) : List Byte := (List.range n).map (BitVec.ofNat 8)

/-- The reset state with inputs to come. -/
def fresh (xs : List Input) : State := { State.reset with inputs := xs }

/-- A core seeded with 32 zero bytes (`95_test_vectors.md` S7), with inputs to come. -/
def seededS7 (xs : List Input) : State :=
  { State.reset with state := 0x0000000000000000DA942042E4DD58B6, inc := 1, seeded := true, inputs := xs }

/-- A core that waits for an entropy answer, with inputs to come. -/
def waiting (xs : List Input) : State := { seededS7 xs with phase := .waitEntropy }

/-- The next state of an outcome. -/
def nextOf : Outcome → Option State
  | .next t => some t
  | .fault _ => none
  | .refused _ => none

/-- The fault of an outcome. -/
def faultOf : Outcome → Option Fault
  | .next _ => none
  | .fault f => some f
  | .refused _ => none

theorem next_of_nextOf {o : Outcome} {t : State} (h : nextOf o = some t) : o = .next t := by
  cases o <;> simp_all [nextOf]

theorem fault_of_faultOf {o : Outcome} {f : Fault} (h : faultOf o = some f) : o = .fault f := by
  cases o <;> simp_all [faultOf]

/-- What the next state of a step answers and where STATE stands. -/
def answer (s : State) : Option (BitVec 8 × U64 × U128) :=
  (nextOf (step s)).map fun t => (t.respStatus, t.respData, t.state)

/-! ### Well-formedness: each check refuses an ill-formed term -/

theorem test_wf_refuses_short_payload : (Instr.seedBytes 32 (fill 31 0)).wf = false := by decide
theorem test_wf_refuses_long_payload : (Instr.seedBytes 0 [0x00]).wf = false := by decide
theorem test_wf_accepts_exact_payload : (Instr.seedBytes 32 (fill 32 0)).wf = true := by decide

/-! ### Decoding: `95_test_vectors.md` section 2.5, words written out bit by bit -/

theorem test_decode_seedBytes_32 :
    decode 0b00000000000000000010000000000001#32 (fill 32 7) = .instr (.seedBytes 32 (fill 32 7)) [] := by decide
theorem test_decode_seedBytes_0 :
    decode 0b00000000000000000000000000000001#32 [] = .instr (.seedBytes 0 []) [] := by decide
theorem test_decode_seedBytes_max :
    decode 0b11111111111111111111111100000001#32 [1] = .instr (.seedBytes 16777215 [1]) [] := by
  simp [decode, opcField, lenField, OPC_SEED_BYTES]
theorem test_decode_seedEntropy :
    decode 0b00000000000000000000000000000010#32 [] = .instr .seedEntropy [] := by decide
theorem test_decode_nextU64 :
    decode 0b00000000000000000000000000010000#32 [] = .instr .nextU64 [] := by decide
theorem test_decode_nextF64 :
    decode 0b00000000000000000000000000010001#32 [] = .instr .nextF64 [] := by decide
theorem test_decode_getstate :
    decode 0b00000000000000000000000000100000#32 [] = .instr .getstate [] := by decide
theorem test_decode_setstate :
    decode 0b00000000000000000000000000100001#32 [] = .instr .setstate [] := by decide
theorem test_decode_illegal :
    [0x00000000#32, 0x00000003#32, 0x00000012#32, 0x00000022#32, 0x000000FF#32].map (decode · []) =
      List.replicate 5 (.illegal .reservedOpcode []) := by decide
theorem test_decode_illegal_z :
    [0x00000102#32, 0x00000110#32, 0x80000010#32].map (decode · []) =
      List.replicate 3 (.illegal .nonzeroZ []) := by decide
theorem test_decode_leaves_bytes_behind : decode 0x00000101#32 [5, 6] = .instr (.seedBytes 1 [5]) [6] := by decide
theorem test_decodeTableWord_row : decodeTableWord 32 0x10 = some .nextU64 := by decide
theorem test_decodeTableWord_operand : decodeTableWord 32 0x201 = some (.seedBytes 2 [0, 0]) := by decide
theorem test_encode_seedBytes : encode (.seedBytes 32 (fill 32 0)) = (0x00002001#32, fill 32 0) := by decide
/-- `20_memory.md` R24: least significant byte first. -/
theorem test_commandBytes : commandBytes (.seedBytes 2 [0xAA, 0xBB]) = [0x01, 0x02, 0x00, 0x00, 0xAA, 0xBB] := by
  decide

/-! ### Datapath: `95_test_vectors.md` section 2.1 -/

theorem test_le128_counting : le128 (counting 16) = 0x0F0E0D0C0B0A09080706050403020100 := by decide
theorem test_le128_ones : le128 (fill 16 0xFF) = 0xFFFFFFFFFFFFFFFFFFFFFFFFFFFFFFFF := by decide
theorem test_lcg_wraps :
    lcg 0xFFFFFFFFFFFFFFFFFFFFFFFFFFFFFFFF 1 = 0xFFFFFFFFFFFFFFFF256BDFBD1B22A74C := by decide
theorem test_lcg_carry :
    lcg 0xDA942042E4DD58B6 1 = 0xBAA09CA73F3265B5D4C622FB941C48AF := by decide
theorem test_half_split :
    (high 0xBAA09CA73F3265B5D4C622FB941C48AE, low 0xBAA09CA73F3265B5D4C622FB941C48AE) =
      (0xBAA09CA73F3265B5, 0xD4C622FB941C48AF) := by decide
theorem test_dxsm_stages : dxsm 0xBAA09CA73F3265B5D4C622FB941C48AF = 0x927EA665BF120FF1 := by decide
theorem test_dxsm_odd_low : dxsm 0x00000000000000010000000000000002 = 0x8FBC60C8AE988663 := by decide
theorem test_f64bits_corners :
    [0x7FF, 0x800, 0x1000, 0x8000000000000000, 0x8000000000000800, 0xFFFFFFFFFFFFFFFF].map f64bits =
      [0, 0x3CA0000000000000, 0x3CB0000000000000, 0x3FE0000000000000, 0x3FE0000000000001, 0x3FEFFFFFFFFFFFFF] := by
  decide
theorem test_f64bits_vector : f64bits 0x927EA665BF120FF1 = 0x3FE24FD4CCB7E241 := by decide
/-- Hand calculation: 0x3FE0000000000000 is 0.5. -/
theorem test_binary64_half : binary64 0x3FE0000000000000 = some (1 / 2) := by
  have h : signBit 0x3FE0000000000000 = false ∧ biasedExponent 0x3FE0000000000000 = 1022 ∧
      fraction 0x3FE0000000000000 = 0 := by decide
  have hp : (2 : ℚ) ^ 1075 = 2 ^ 1022 * 2 ^ 53 := by rw [← pow_add]
  simp only [binary64, h.1, h.2.1, h.2.2, hp]
  norm_num
  field_simp
  norm_num

/-! ### Commands: one step each -/

/-- `95_test_vectors.md` S7 (and `41_seeding.md` R53, example). -/
theorem test_seedBytes_zeros :
    answer (fresh [.command 0x00002001 (fill 32 0)]) = some (0x00, 0, 0xDA942042E4DD58B6) := by decide
/-- `95_test_vectors.md` S12: bytes from 32 on are ignored; STATE as S9. -/
theorem test_seedBytes_counting_64 :
    answer (seededS7 [.command 0x00004001 (counting 64)]) = some (0x00, 0, 0x8740FAB46E27E19C23A4877F5225AF16) := by
  decide
/-- `95_test_vectors.md` S3: LEN = 31 fails and leaves the generator. -/
theorem test_seedBytes_31 :
    answer (seededS7 [.command 0x00001F01 (fill 31 0)]) = some (0x01, 0, 0xDA942042E4DD58B6) := by decide
/-- `95_test_vectors.md` S8: INC of the all-ones seed, and STATE with a wrapping fold. -/
theorem test_derive_ones :
    derive (fill 32 0xFF) = (0xFFFFFFFFFFFFFFFE4AD7BF7A36454E95, 0xFFFFFFFFFFFFFFFFFFFFFFFFFFFFFFFF) := by decide
/-- `95_test_vectors.md` S10: the fold wraps to 0. -/
theorem test_derive_wraps : derive (fill 16 0xFF ++ fill 16 0) = (1, 1) := by decide
/-- `41_seeding.md` R58: the issue writes PHASE only. -/
theorem test_seedEntropy_issue :
    nextOf (step (seededS7 [.command 0x00000002 []])) = some (waiting []) := by decide
/-- `95_test_vectors.md` E1, S11. -/
theorem test_entropy_ok :
    answer (waiting [.entropy (.ok (Vector.replicate 32 0xA5))]) =
      some (0x00, 0, 0x4B4B4B4B4B4B4B4A306D7BE5AAA550F7) := by decide
/-- `95_test_vectors.md` E3. -/
theorem test_entropy_unavailable :
    answer (waiting [.entropy .unavailable]) = some (0x02, 0, 0xDA942042E4DD58B6) := by decide
/-- `95_test_vectors.md` O1, k = 1. -/
theorem test_nextU64 :
    answer (seededS7 [.command 0x00000010 []]) =
      some (0x00, 0x927EA665BF120FF1, 0xBAA09CA73F3265B5D4C622FB941C48AF) := by decide
/-- `95_test_vectors.md` O5. -/
theorem test_nextU64_unseeded :
    nextOf (step (fresh [.command 0x00000010 []])) =
      some { fresh [] with respStatus := 0x04, responses := [⟨0x04, 0⟩] } := by decide
/-- `95_test_vectors.md` O1, k = 1, the double. -/
theorem test_nextF64 :
    answer (seededS7 [.command 0x00000011 []]) =
      some (0x00, 0x3FE24FD4CCB7E241, 0xBAA09CA73F3265B5D4C622FB941C48AF) := by decide
/-- `95_test_vectors.md` O4, k = 1: u = 0 gives +0.0. -/
theorem test_nextF64_zero :
    answer { seededS7 [.command 0x00000011 []] with state := 1 } = some (0x00, 0, 0xDA942042E4DD58B6) := by decide
/-- `43_control.md` R65, example. -/
theorem test_getstate :
    answer (seededS7 [.command 0x00000020 []]) = some (0x03, 0, 0xDA942042E4DD58B6) := by decide
/-- `43_control.md` R66, example. -/
theorem test_setstate :
    answer (seededS7 [.command 0x00000021 []]) = some (0x03, 0, 0xDA942042E4DD58B6) := by decide
/-- `43_control.md` R67: NEXT_U64 with Z = 1 does not advance STATE. -/
theorem test_illegal_word :
    answer (seededS7 [.command 0x00000110 []]) = some (0x05, 0, 0xDA942042E4DD58B6) := by decide

/-! ### Ports: faults, reset, late answers, the host's fetch -/

/-- `95_test_vectors.md` section 2.7. -/
theorem test_overlap :
    faultOf (step (waiting [.command 0x00000010 []])) = some (.protocolViolation .overlap) := by decide
/-- `95_test_vectors.md` section 2.7: too few payload bytes, and one too many for an output command. -/
theorem test_payload_length :
    [step (fresh [.command 0x00002001 (fill 31 0)]), step (fresh [.command 0x00000010 [0]]),
      step (fresh [.command 0x00000000 [0]])].map faultOf =
      List.replicate 3 (some (.protocolViolation .payloadLength)) := by decide
/-- `95_test_vectors.md` E5: reset abandons the request, the late answer is ignored. -/
theorem test_reset_then_late_answer :
    nextOf (run 2 (waiting [.reset, .entropy .unavailable])) = some State.reset := by decide
theorem test_fetched_word_runs_first :
    (nextOf (step (State.reset.withFetchWord 32 0x21))).map (·.respStatus) = some 0x03 := by decide
theorem test_core_is_the_machine : Sys2Proof.core.reset = State.reset := rfl

/-- R93: a reset after the last command is not part of the run, one between commands is. -/
theorem test_trailing_reset_is_after_the_run :
    observedRun (fresh [.command 0x00002001 (fill 32 0), .reset]) = some ([⟨0x00, 0⟩], true) ∧
    observedRun (fresh [.command 0x00002001 (fill 32 0), .reset, .command 0x00000010 []]) =
      some ([⟨0x00, 0⟩, ⟨0x04, 0⟩], false) := by decide
/-- R93, R79: a run with PHASE = WAIT_ENTROPY is not over; a reset that abandons the wait occurs in the run and ends it. -/
theorem test_waiting_run_is_not_over :
    observedRun (seededS7 [.command 0x00000002 []]) = none ∧
    observedRun (seededS7 [.command 0x00000002 [], .reset]) = some ([], false) := by decide

/-! ### Assembler and response notation: `30_encoding.md` R41, R43, `95_test_vectors.md` section 3 -/

theorem test_assemble_fill :
    (parseLine "SEED_BYTES fill(33, 0xFF) ; P2 line 5").bind (·.bind assemble) =
      some (0x00002101, fill 33 0xFF) := by decide
theorem test_assemble_hex :
    (parseLine "SEED_BYTES x\"0001fF\"").bind (·.bind assemble) = some (0x00000301, [0x00, 0x01, 0xFF]) := by decide
theorem test_assemble_others :
    ["SEED_BYTES zeros(2)", "SEED_ENTROPY", " NEXT_U64", "NEXT_F64 ; draw", "GETSTATE", "SETSTATE", ".cmd 0x00000110"].map
        (fun l => (parseLine l).bind (·.bind assemble)) =
      [some (0x00000201, [0, 0]), some (0x00000002, []), some (0x00000010, []), some (0x00000011, []),
        some (0x00000020, []), some (0x00000021, []), some (0x00000110, [])] := by decide
theorem test_parse_refuses :
    ["NEXT_U64 1", "next_u64", "SEED_BYTES x\"0\"", ".cmd 0x110", "SEED_BYTES fill(1, 256)"].map parseLine =
      List.replicate 5 none := by decide
theorem test_parse_blank : parseLine "  ; nothing" = some none := by decide
theorem test_render :
    (renderResponse ⟨0x00, 0x927EA665BF120FF1⟩) = some "-> OK, 0x927EA665BF120FF1".toList := by decide
theorem test_render_error :
    (renderResponse ⟨0x04, 0⟩) = some "-> NOT_SEEDED, 0x0000000000000000".toList := by decide

/-! ### Witnesses: concrete states and operands that meet each statement's hypotheses -/

theorem witness_ResetInputResetsCore :
    (waiting [.reset, .entropy .unavailable]).inputs = .reset :: [.entropy .unavailable] ∧
    step (waiting [.command 0x00000010 []]) = .fault (.protocolViolation .overlap) :=
  ⟨rfl, fault_of_faultOf (by decide)⟩

/-- LEN = 0 and 31 for the failure; 32 and the largest LEN for the seeding. -/
theorem witness_SeedBytesSeedsGenerator :
    ((fill 0 0).length = (0 : Len).toNat ∧ (0 : Len).toNat < 32) ∧
    ((fill 31 0).length = (31 : Len).toNat ∧ (31 : Len).toNat < 32) ∧
    ((fill 32 0).length = (32 : Len).toNat ∧ 32 ≤ (32 : Len).toNat) ∧
    (∃ seed : List Byte, seed.length = (16777215 : Len).toNat ∧ 32 ≤ (16777215 : Len).toNat) :=
  ⟨by decide, by decide, by decide, fill (16777215 : Len).toNat 0, List.length_replicate, by decide⟩

theorem witness_SeedLengthBoundary :
    ∀ len ∈ [(0 : Len), 1, 31, 32, 33, 64], ∃ (s : State) (seed : List Byte), seed.length = len.toNat ∧
      s.phase = .idle ∧ s.inputs = .command (0x00000001#32 ||| (len.setWidth 32 <<< 8)) seed :: [] :=
  fun len _ => ⟨fresh [.command (0x00000001#32 ||| (len.setWidth 32 <<< 8)) (fill len.toNat 0)],
    fill len.toNat 0, by simp [fill], rfl, rfl⟩

theorem witness_DeriveFollowsSeedSteps :
    32 ≤ (counting 32).length ∧ (counting 32).take 32 = (counting 64).take 32 ∧
      (counting 32)[16]? = some 0x10 := by decide

theorem witness_SeedingDependsOnFirst32BytesOnly :
    (counting 64).length = (64 : Len).toNat ∧ 32 ≤ (64 : Len).toNat := by decide

theorem witness_FirstDrawIsSecondGeneratedValue :
    (counting 32).length = (32 : Len).toNat ∧ 32 ≤ (32 : Len).toNat := by decide

theorem witness_SeedEntropyIssuesRequest :
    State.reset.inputs = [] ∧ (waiting [.reset]).phase = .waitEntropy ∧
      (waiting [.reset]).inputs = .reset :: [] := by decide

theorem witness_EntropyBytesCompleteSeeding :
    (waiting [.entropy (.ok (Vector.replicate 32 0xA5))]).phase = .waitEntropy ∧
      (waiting [.entropy (.ok (Vector.replicate 32 0xA5))]).inputs =
        .entropy (.ok (Vector.replicate 32 0xA5)) :: [] := by decide

theorem witness_EntropyUnavailableKeepsGenerator :
    (waiting [.entropy .unavailable]).phase = .waitEntropy ∧
      (waiting [.entropy .unavailable]).inputs = .entropy .unavailable :: [] := by decide

theorem witness_UnrequestedEntropyAnswerIsIgnored :
    (fresh [.entropy .unavailable]).phase = .idle ∧
      (fresh [.entropy .unavailable]).inputs = .entropy .unavailable :: [] := by decide

/-- A state of each kind; the last two clauses at u = 0 (STATE = 1 advances to an upper half of 0) and at u ≠ 0. -/
theorem witness_NextU64DrawsFromUpdatedState :
    (seededS7 []).seeded = true ∧ (fresh []).seeded = false ∧
    (∃ t, exec .nextU64 { seededS7 [] with state := 1 } = .next t ∧ t.respData = 0 ∧ t.state.toNat < 2 ^ 64) ∧
    (∃ t, exec .nextU64 (seededS7 []) = .next t ∧ t.respData ≠ 0 ∧ ¬ t.state.toNat < 2 ^ 64) :=
  ⟨by decide, by decide,
    ⟨_, next_of_nextOf rfl, by decide, by decide⟩, ⟨_, next_of_nextOf rfl, by decide, by decide⟩⟩

theorem witness_NextF64DrawsFromUpdatedState :
    (seededS7 []).seeded = true ∧ (fresh []).seeded = false ∧
    (∃ t, exec .nextF64 { seededS7 [] with state := 1 } = .next t ∧ t.respData = 0) ∧
    (∃ t, exec .nextF64 (seededS7 []) = .next t ∧ t.respData ≠ 0) :=
  ⟨by decide, by decide, ⟨_, next_of_nextOf rfl, by decide⟩, ⟨_, next_of_nextOf rfl, by decide⟩⟩

theorem witness_UnseededOutputAnswersNotSeeded : (fresh []).seeded = false := by decide

theorem seededS7_inv (xs : List Input) : (seededS7 xs).Inv where
  incOdd := fun _ => (by decide : (1#128).getLsbD 0 = true)
  statusLegal := rfl
  errorDataZero := fun h => absurd rfl h
  responsesLegal := fun r h => by simp [seededS7, State.reset] at h

theorem witness_EveryDrawMovesState : (seededS7 []).Inv ∧ (seededS7 []).seeded = true :=
  ⟨seededS7_inv [], rfl⟩

theorem witness_GetstateAnswersUnsupported : (seededS7 []).phase = .idle := rfl

theorem witness_SetstateAnswersUnsupported :
    ∃ t u v, exec .setstate (seededS7 []) = .next t ∧ exec .nextU64 (seededS7 []) = .next u ∧
      exec .nextU64 t = .next v ∧ v.respData = 0x927EA665BF120FF1 :=
  ⟨_, _, _, next_of_nextOf rfl, next_of_nextOf rfl, next_of_nextOf rfl, by decide⟩

/-- The words at the edges of the reserved ranges of R37, two with nonzero Z (R38), and SEED_BYTES with the smallest and
the largest LEN. -/
theorem witness_IllegalWordsAnswerIllegalCommand :
    (∀ w ∈ [0x00#32, 0x03#32, 0x0F#32, 0x12#32, 0x1F#32, 0x22#32, 0xFF#32],
      w.toNat % 256 ∉ [0x01, 0x02, 0x10, 0x11, 0x20, 0x21]) ∧
    (∀ w ∈ [0x00000110#32, 0x80000021#32], w.toNat % 256 ≠ 0x01 ∧ w.toNat / 256 ≠ 0) ∧
    (∀ w ∈ [0x00000001#32, 0xFFFFFF01#32], w.toNat % 256 = 0x01) ∧
    (fresh [.command 0x00000000 []]).phase = .idle ∧
    (fresh [.command 0x00000000 []]).inputs = .command 0x00000000 [] :: [] ∧
    (∃ seed : List Byte, seed.length = (16777215 : Len).toNat) :=
  ⟨by simp, by simp, by simp, rfl, rfl, fill (16777215 : Len).toNat 0, List.length_replicate⟩

theorem witness_DecodeOfEncode :
    (Instr.seedBytes 0 []).wf = true ∧ ∃ seed, (Instr.seedBytes 16777215 seed).wf = true :=
  ⟨by decide, fill (16777215 : Len).toNat 0, beq_iff_eq.mpr List.length_replicate⟩

theorem witness_EncodeOfDecode :
    decode 0x00000201#32 [1, 2, 3] = .instr (.seedBytes 2 [1, 2]) [3] ∧
      decode 0x00000201#32 [1] = .instr (.seedBytes 2 [1]) [] := by decide

/-- Payload notations on both sides of the largest LEN, and a `.cmd` word without its payload. -/
theorem witness_AssembledLinesAreSingleCommands :
    ((PayloadText.hex []).bytes.length < 2 ^ 24 ∧ (∃ n, (PayloadText.zeros n).bytes.length = 2 ^ 24 - 1) ∧
      ∃ n, 2 ^ 24 ≤ (PayloadText.zeros n).bytes.length) ∧
    ((0x00002001#32).toNat % 256 = 0x01 ∧ (0x00002001#32).toNat / 256 ≠ 0 ∧
      (fresh [.command 0x00002001 []]).phase = .idle ∧
      (fresh [.command 0x00002001 []]).inputs = .command 0x00002001 [] :: []) :=
  ⟨⟨by decide, ⟨2 ^ 24 - 1, List.length_replicate⟩, ⟨2 ^ 24, List.length_replicate.ge⟩⟩, by decide⟩

theorem witness_SerialisationIsLittleEndian : 0 < 8 ∧ 7 < 8 ∧ 0 < 4 ∧ 3 < 4 := by decide

theorem witness_LittleEndianAssembly : (counting 16).length = 16 ∧ 0 < 16 ∧ 15 < 16 := by decide

/-- A completion of each kind the selector tells apart. -/
theorem witness_ResponseDataIsSelected :
    (∃ t r, step (seededS7 [.command 0x00000010 []]) = .next t ∧
      t.responses = (seededS7 [.command 0x00000010 []]).responses ++ [r]) ∧
    (∃ t r, step (seededS7 [.command 0x00000011 []]) = .next t ∧
      t.responses = (seededS7 [.command 0x00000011 []]).responses ++ [r]) ∧
    (∃ t r, step (fresh [.command 0x00000010 []]) = .next t ∧
      t.responses = (fresh [.command 0x00000010 []]).responses ++ [r]) ∧
    (∃ t r, step (waiting [.entropy .unavailable]) = .next t ∧
      t.responses = (waiting [.entropy .unavailable]).responses ++ [r]) :=
  ⟨⟨_, _, next_of_nextOf rfl, rfl⟩, ⟨_, _, next_of_nextOf rfl, rfl⟩, ⟨_, _, next_of_nextOf rfl, rfl⟩,
    ⟨_, _, next_of_nextOf rfl, rfl⟩⟩

theorem witness_StepRunsDecodedCommand :
    (seededS7 [.command 0x00000010 []]).phase = .idle ∧
      (seededS7 [.command 0x00000010 []]).inputs = .command 0x00000010 [] :: [] ∧
      decode 0x00000010 [] = .instr .nextU64 [] ∧ Instr.nextU64.wf = true := by decide

theorem witness_ReadingResponseChangesNothing : (fresh [.readResponse]).inputs = .readResponse :: [] := rfl

theorem witness_ErrorsArePrecise :
    ∃ t r, step (seededS7 [.command 0x00000020 []]) = .next t ∧
      t.responses = (seededS7 [.command 0x00000020 []]).responses ++ [r] ∧ r.status ≠ 0x00 :=
  ⟨_, _, next_of_nextOf rfl, rfl, by decide⟩

/-- Every decoded case, SEED_BYTES at both sides of its boundary, and both entropy answers. -/
theorem witness_StatusFollowsOrderOfChecks :
    (∀ wp ∈ [(0x00000000#32, []), (0x20#32, []), (0x21#32, []), (0x10#32, []), (0x11#32, []),
        (0x00001F01#32, fill 31 0), (0x00002001#32, fill 32 0)],
      wp.2.length = payloadBytes wp.1 ∧ wp.1 ≠ 0x00000002#32 ∧ (fresh [.command wp.1 wp.2]).phase = .idle ∧
        (fresh [.command wp.1 wp.2]).inputs = .command wp.1 wp.2 :: []) ∧
    ([] : List Byte).length = payloadBytes 0x00000002 ∧
    (∀ a ∈ [EntropyAnswer.unavailable, .ok (Vector.replicate 32 0)],
      (waiting [.entropy a]).phase = .waitEntropy ∧ (waiting [.entropy a]).inputs = .entropy a :: []) := by
  decide

theorem witness_StatusIsNotSticky : Instr.seedBytes 0 [] ≠ .seedEntropy ∧ Instr.nextU64 ≠ .seedEntropy := by decide

theorem witness_StepKeepsInvariant :
    ∃ t, (seededS7 [.command 0x00000010 []]).Inv ∧ step (seededS7 [.command 0x00000010 []]) = .next t :=
  ⟨_, seededS7_inv _, next_of_nextOf rfl⟩

/-- A next state for every kind of oldest input. -/
theorem witness_SeededIsWrittenBySeedingAndReset :
    ∀ s ∈ [fresh [], seededS7 [.reset], seededS7 [.readResponse], waiting [.entropy (.ok (Vector.replicate 32 0))],
        fresh [.entropy (.ok (Vector.replicate 32 0))], waiting [.entropy .unavailable],
        fresh [.command 0x00001F01 (fill 31 0)], fresh [.command 0x00002001 (fill 32 0)]],
      (nextOf (step s)).isSome = true := by decide

/-- INC written by each of its three writers. -/
theorem witness_IncIsWrittenBySeedingAndReset :
    ∀ s ∈ [seededS7 [.reset], seededS7 [.command 0x00002001 (fill 32 0xFF)],
        waiting [.entropy (.ok (Vector.replicate 32 0xA5))]],
      ((nextOf (step s)).map fun t => decide (t.inc ≠ s.inc)) = some true := by decide

/-- STATE written by each of its writers. -/
theorem witness_StateIsWrittenBySeedingDrawsAndReset :
    ∀ s ∈ [seededS7 [.reset], seededS7 [.command 0x00002001 (fill 32 0xFF)],
        waiting [.entropy (.ok (Vector.replicate 32 0xA5))], seededS7 [.command 0x00000010 []],
        seededS7 [.command 0x00000011 []]],
      ((nextOf (step s)).map fun t => decide (t.state ≠ s.state)) = some true := by decide

/-- A completion, a reset, the issue of SEED_ENTROPY, and a step that writes nothing. -/
theorem witness_ResponseIsWrittenAtCompletionAndReset :
    ∀ s ∈ [seededS7 [.command 0x00000010 []], seededS7 [.reset], fresh [.command 0x00000002 []], waiting []],
      (nextOf (step s)).isSome = true := by decide

theorem witness_OneResponsePerCommand :
    ∃ t, .reset ∉ (fresh [.command 0x00000002 [], .entropy .unavailable, .command 0x00000020 []]).inputs ∧
      runInputs (fresh [.command 0x00000002 [], .entropy .unavailable, .command 0x00000020 []]) = .next t :=
  ⟨_, by decide, next_of_nextOf rfl⟩

/-- A host that respects its protocol, one that overlaps, and one with a wrong payload. -/
theorem witness_RespectfulHostRunsThrough :
    hostRespects (fresh []).phase [.command 0x00000002 [], .entropy .unavailable, .command 0x00000010 []] = true ∧
    hostRespects (fresh []).phase [.command 0x00000002 [], .command 0x00000010 []] = false ∧
    hostRespects (fresh []).phase [.command 0x00002001 (fill 31 0)] = false := by decide

/-- A run that ends before its last inputs, one that waits, one with a violation, and an idle core with a reset to come. -/
theorem witness_RunIsObservedWhereItEnds :
    hostRespects (fresh []).phase [.command 0x00002001 (fill 32 0), .reset] = true ∧
    hostRespects (fresh []).phase [.command 0x00000002 []] = true ∧
    hostRespects (fresh []).phase [.command 0x00000010 [0]] = false ∧
    (seededS7 [.reset]).phase = .idle ∧ (seededS7 [.reset]).inputs = .reset :: [] ∧
    ([] : List Input).any Input.isCommand = false := by decide

theorem witness_RunsComposeInOrder :
    ∃ t, runInputs { fresh [] with inputs := [.command 0x00000010 [], .reset] } = .next t :=
  ⟨_, next_of_nextOf rfl⟩

/-- Draws of both kinds, a failing seeding, GETSTATE, an illegal word, a late answer and a read. -/
theorem witness_SequenceLaw :
    let xs : List Input := [.command 0x00000010 [], .command 0x00001F01 (fill 31 0), .command 0x00000020 [],
      .command 0x00000110 [], .entropy .unavailable, .readResponse, .command 0x00000011 []]
    (seededS7 xs).seeded = true ∧ (seededS7 xs).phase = .idle ∧ hostRespects .idle xs = true ∧
      ∀ x ∈ xs, (match x with
        | .command w p => w ≠ 0x00000002#32 ∧ (w.toNat % 256 = 0x01 → p.length < 32)
        | .entropy _ => True
        | .readResponse => True
        | .reset => False) := by
  refine ⟨rfl, rfl, by decide, ?_⟩
  simp [fill]

theorem witness_UnseededBitsAreNeverObserved : (fresh [.command 0x00000010 []]).seeded = false := rfl

end Sys2Proof.Tests
end

section
/-! The proofs of the statements of `10_state.md`: first what an input does to the core, said once (`InputEffect`), then
who writes which element of the state, the invariant, and that the bits of an unseeded generator are never observed. -/

namespace Sys2Proof.Machine

/-! ### Command words and what they decode to -/

/-- A command word is its two fields (`30_encoding.md` R32). -/
theorem cmdWord_ext {v w : CmdWord} (ho : opcField v = opcField w) (hl : lenField v = lenField w) : v = w := by
  have ho' := congrArg BitVec.toNat ho
  have hl' := congrArg BitVec.toNat hl
  rw [opcField_toNat, opcField_toNat] at ho'
  rw [lenField_toNat, lenField_toNat] at hl'
  exact BitVec.eq_of_toNat_eq (by omega)

/-- A command is read from its own word and payload, whatever bytes are left over (`30_encoding.md` R39). -/
theorem encode_of_decode_instr {w : CmdWord} {channel rest : List Byte} {i : Instr}
    (h : decode w channel = .instr i rest) : encodeWord i = w ∧ encodePayload i ++ rest = channel := by
  unfold decode at h
  split_ifs at h with hop hlen hop hop hop hop hop <;> cases h
  case pos =>
    exact ⟨cmdWord_ext (hop ▸ opcField_seedBytes _ _) (lenField_seedBytes _ _), List.take_append_drop _ _⟩
  all_goals exact ⟨cmdWord_ext hop.symm (not_not.mp hlen).symm, rfl⟩

theorem opc_of_decode_seedBytes {w : CmdWord} {channel rest p : List Byte} {len : Len}
    (h : decode w channel = .instr (.seedBytes len p) rest) : w.toNat % 256 = 0x01 := by
  rw [← (encode_of_decode_instr h).1, seedBytes_word_toNat]
  omega

/-- Every word with the OPC of SEED_BYTES is a SEED_BYTES (`30_encoding.md` R38). -/
theorem opc_of_decode_illegal {w : CmdWord} {channel rest : List Byte} {why : IllegalReason}
    (h : decode w channel = .illegal why rest) : w.toNat % 256 ≠ 0x01 := by
  intro hw
  have hop : opcField w = OPC_SEED_BYTES := BitVec.eq_of_toNat_eq (by rw [opcField_toNat, hw]; rfl)
  simp [decode, hop] at h

/-- The only words with an OPC of 0x01 are those of SEED_BYTES (`30_encoding.md` R36). -/
theorem encodeWord_opc : ∀ i ∈ [Instr.seedEntropy, .nextU64, .nextF64, .getstate, .setstate],
    (encodeWord i).toNat % 256 ≠ 0x01 := by decide

/-! ### What an input does -/

/-- What the inputs do to a core, each with its guard: the next states of `takeInput`. -/
inductive InputEffect (s : State) : Input → State → Prop where
  /-- The host reads the response (`20_memory.md` R26). -/
  | read : InputEffect s .readResponse s
  /-- An entropy answer that nobody waits for (`60_exceptions.md` R79). -/
  | lateEntropy {a : EntropyAnswer} (idle : s.phase = .idle) : InputEffect s (.entropy a) s
  /-- The reset input (`70_reset_and_hazards.md` R86). -/
  | reset : InputEffect s .reset (resetCore s)
  /-- The issue of SEED_ENTROPY (`41_seeding.md` R58). -/
  | request (idle : s.phase = .idle) : InputEffect s (.command (encodeWord .seedEntropy) []) (requestEntropy s)
  /-- A SEED_BYTES that succeeds (`41_seeding.md` R53). -/
  | seedBytes {w : CmdWord} {p : List Byte} (idle : s.phase = .idle) (opc : w.toNat % 256 = 0x01)
      (long : 32 ≤ p.length) : InputEffect s (.command w p) (seedWith p s)
  /-- A SEED_ENTROPY completed with bytes (`41_seeding.md` R59). -/
  | seedEntropy {b : Vector Byte Config.ENT_REQ} (waiting : s.phase = .waitEntropy) :
      InputEffect s (.entropy (.ok b)) (seedWith b.toList s)
  /-- A SEED_ENTROPY completed without bytes (`41_seeding.md` R60). -/
  | unavailable (waiting : s.phase = .waitEntropy) :
      InputEffect s (.entropy .unavailable) (raiseError .entropyUnavailable s)
  /-- An output command on a seeded core (`42_output.md` R61, R62). -/
  | draw {i : Instr} (idle : s.phase = .idle) (output : i = .nextU64 ∨ i = .nextF64) (seeded : s.seeded = true) :
      InputEffect s (.command (encodeWord i) [])
        (respond .ok (select i .ok (dxsm (lcg s.state s.inc))) (writeState (lcg s.state s.inc) s))
  /-- A command that answers an error (`60_exceptions.md` R71); it is no SEED_BYTES of 32 bytes or more. -/
  | reject {w : CmdWord} {p : List Byte} {e : Status} (idle : s.phase = .idle) (error : e ≠ .ok)
      (noSeed : ¬ (w.toNat % 256 = 0x01 ∧ 32 ≤ p.length)) : InputEffect s (.command w p) (raiseError e s)

/-- An executed command is one of the effects of its word and payload. -/
theorem exec_effect {w : CmdWord} {p : List Byte} {i : Instr} {s t : State} (idle : s.phase = .idle)
    (hd : decode w p = .instr i []) (h : exec i s = .next t) : InputEffect s (.command w p) t := by
  obtain ⟨rfl, hp⟩ := encode_of_decode_instr hd
  rw [List.append_nil] at hp
  subst hp
  rcases exec_next_cases h with ⟨len, p, rfl, hlen, hshort, rfl⟩ | ⟨len, p, rfl, hlen, hlong, rfl⟩ | ⟨rfl, rfl⟩ |
    ⟨hi, hs, rfl⟩ | ⟨hi, -, rfl⟩ | ⟨hi, rfl⟩
  · have hp : ¬ 32 ≤ p.length := by omega
    exact .reject idle (by decide) fun hseed => hp hseed.2
  · exact .seedBytes idle (opc_of_decode_seedBytes hd) (hlen ▸ hlong)
  · exact .request idle
  · have hp : encodePayload i = [] := by rcases hi with rfl | rfl <;> rfl
    exact hp ▸ .draw idle hi hs
  · exact .reject idle (by decide) fun hseed => encodeWord_opc i (by rcases hi with rfl | rfl <;> decide) hseed.1
  · exact .reject idle (by decide) fun hseed => encodeWord_opc i (by rcases hi with rfl | rfl <;> decide) hseed.1

/-- Every next state of an input is one of its effects. -/
theorem takeInput_effect {x : Input} {s t : State} (h : takeInput x s = .next t) : InputEffect s x t := by
  cases x with
  | command w p =>
    obtain ⟨idle, ⟨i, hd, he⟩ | ⟨why, hd, rfl⟩⟩ := acceptCommand_next_cases h
    · exact exec_effect idle hd he
    · exact .reject idle (by decide) fun hseed => opc_of_decode_illegal hd hseed.1
  | entropy a =>
    obtain ⟨idle, rfl⟩ | ⟨waiting, ⟨b, rfl, rfl⟩ | ⟨rfl, rfl⟩⟩ := acceptEntropy_next_cases h
    · exact .lateEntropy idle
    · exact .seedEntropy waiting
    · exact .unavailable waiting
  | readResponse =>
    cases h
    exact .read
  | reset =>
    cases h
    exact .reset

/-- A step stands still with no input left, or has the effect of the oldest input. -/
theorem step_effect {s t : State} (h : step s = .next t) :
    (s.inputs = [] ∧ t = s) ∨
    ∃ x rest, s.inputs = x :: rest ∧ InputEffect { s with inputs := rest } x t := by
  obtain hnil | ⟨x, rest, hi, hx⟩ := step_next_cases h
  · exact .inl hnil
  · exact .inr ⟨x, rest, hi, takeInput_effect hx⟩

/-! ### The invariant -/

theorem State.Inv.withInputs {s : State} (h : s.Inv) (xs : List Input) : { s with inputs := xs }.Inv := { h with }

/-- A completion keeps the invariant where an error carries the data 0 (`60_exceptions.md` R69). -/
theorem State.Inv.respond {s : State} (h : s.Inv) {st : Status} {d : U64} (hd : st ≠ .ok → d = 0) :
    (respond st d s).Inv where
  incOdd := h.incOdd
  statusLegal := legalCode_code st
  errorDataZero he := hd fun hst => he (congrArg Status.code hst)
  responsesLegal := by
    intro r hr
    obtain hr | hr := List.mem_append.mp hr
    · exact h.responsesLegal r hr
    · obtain rfl := List.mem_singleton.mp hr
      exact ⟨legalCode_code st, fun he => hd fun hst => he (congrArg Status.code hst)⟩

theorem State.Inv.raiseError {s : State} (h : s.Inv) (e : Status) : (raiseError e s).Inv :=
  h.respond fun _ => rfl

/-- A derived increment is odd, so a seeding needs nothing of the generator it replaces (`41_seeding.md` R54). -/
theorem State.Inv.seedWith {s : State} (h : s.Inv) (b : List Byte) : (seedWith b s).Inv :=
  have hw : (writeGenerator (derive b) s).Inv := { h with incOdd := fun _ => seedIncrement_odd b }
  hw.respond fun _ => rfl

theorem State.Inv.writeState {s : State} (h : s.Inv) (v : U128) : (writeState v s).Inv := { h with }

theorem State.Inv.requestEntropy {s : State} (h : s.Inv) : (requestEntropy s).Inv := { h with }

/-- A reset answers an unseeded core with the response OK, 0; of the old state only the responses count. -/
theorem State.Inv.resetCore {s : State} (h : s.Inv) : (resetCore s).Inv where
  incOdd hs := nomatch hs
  statusLegal := legalCode_code .ok
  errorDataZero _ := rfl
  responsesLegal := h.responsesLegal

theorem InputEffect.keeps_inv {x : Input} {s t : State} (hx : InputEffect s x t) (h : s.Inv) : t.Inv := by
  cases hx with
  | read => exact h
  | lateEntropy => exact h
  | reset => exact h.resetCore
  | request => exact h.requestEntropy
  | seedBytes => exact h.seedWith _
  | seedEntropy => exact h.seedWith _
  | unavailable => exact h.raiseError _
  | draw => exact (h.writeState _).respond fun hne => absurd rfl hne
  | reject => exact h.raiseError _

/-- Settles O41: a step has the effect of its oldest input, and every effect keeps the invariant. -/
theorem stepKeepsInvariant : Obligations.StepKeepsInvariant := by
  intro s t hs h
  obtain ⟨-, rfl⟩ | ⟨x, rest, -, hx⟩ := step_effect h
  · exact hs
  · exact hx.keeps_inv (hs.withInputs rest)

/-- Settles O40: the reset state is unseeded, its response is OK with data 0, and none has been delivered. -/
theorem resetMeetsInvariant : Obligations.ResetMeetsInvariant where
  incOdd hs := nomatch hs
  statusLegal := legalCode_code .ok
  errorDataZero _ := rfl
  responsesLegal _ hr := nomatch hr

/-! ### How a step can stop -/

/-- A command that is executed answers a next state, or faults on a payload of the wrong length. -/
theorem exec_next_or_violation (i : Instr) (s : State) :
    (∃ t, exec i s = .next t) ∨ exec i s = .fault (.protocolViolation .payloadLength) := by
  cases i with
  | seedBytes len p =>
    by_cases hp : p.length = len.toNat
    · rcases Nat.lt_or_ge len.toNat 32 with hl | hl
      · exact .inl ⟨_, exec_seedBytes_short s hp hl⟩
      · exact .inl ⟨_, exec_seedBytes_long s hp hl⟩
    · exact .inr (exec_seedBytes_mismatch s hp)
  | seedEntropy => exact .inl ⟨_, exec_seedEntropy s⟩
  | nextU64 => exact .inl ⟨_, draw_eq .nextU64 s⟩
  | nextF64 => exact .inl ⟨_, draw_eq .nextF64 s⟩
  | getstate => exact .inl ⟨_, exec_getstate s⟩
  | setstate => exact .inl ⟨_, exec_setstate s⟩

/-- What the command port does with a word and its payload depends on PHASE alone: it finds a breach of the host protocol,
executes a command, or answers ILLEGAL_COMMAND. -/
theorem acceptCommand_cases (w : CmdWord) (p : List Byte) (ph : Phase) :
    (∃ k, ∀ s : State, s.phase = ph → acceptCommand w p s = .fault (.protocolViolation k)) ∨
    (∃ i, ∀ s : State, s.phase = ph → acceptCommand w p s = exec i s) ∨
    (∀ s : State, s.phase = ph → acceptCommand w p s = .next (raiseError .illegalCommand s)) := by
  cases ph with
  | waitEntropy => exact .inl ⟨.overlap, fun s hs => acceptCommand_overlap w p hs⟩
  | idle =>
    cases hd : decode w p with
    | instr i rest =>
      by_cases hr : rest = []
      · exact .inr (.inl ⟨i, fun s hs => by simp [acceptCommand, hs, hd, hr]⟩)
      · exact .inl ⟨.payloadLength, fun s hs => by simp [acceptCommand, hs, hd, hr]⟩
    | illegal why rest =>
      by_cases hr : rest = []
      · exact .inr (.inr fun s hs => by simp [acceptCommand, hs, hd, hr, execIllegal])
      · exact .inl ⟨.payloadLength, fun s hs => by simp [acceptCommand, hs, hd, hr]⟩

/-- An answer of the entropy source always leads to a next state. -/
theorem acceptEntropy_next (a : EntropyAnswer) (s : State) : ∃ t, acceptEntropy a s = .next t := by
  cases hp : s.phase with
  | idle => exact ⟨s, acceptEntropy_idle a hp⟩
  | waitEntropy =>
    cases a with
    | ok b => exact ⟨_, acceptEntropy_ok b hp⟩
    | unavailable => exact ⟨_, acceptEntropy_unavailable hp⟩

theorem takeInput_next_or_violation (x : Input) (s : State) :
    (∃ t, takeInput x s = .next t) ∨ ∃ k, takeInput x s = .fault (.protocolViolation k) := by
  cases x with
  | command w p =>
    rw [takeInput_command]
    obtain ⟨k, hk⟩ | ⟨i, hi⟩ | hill := acceptCommand_cases w p s.phase
    · exact .inr ⟨k, hk s rfl⟩
    · rw [hi s rfl]
      exact (exec_next_or_violation i s).imp_right fun hv => ⟨_, hv⟩
    · exact .inl ⟨_, hill s rfl⟩
  | entropy a => exact .inl (acceptEntropy_next a s)
  | readResponse => exact .inl ⟨s, rfl⟩
  | reset => exact .inl ⟨resetCore s, rfl⟩

/-- A step answers a next state, or stops with a breach of the host protocol (`60_exceptions.md` R76). -/
theorem step_next_or_violation (s : State) :
    (∃ t, step s = .next t) ∨ ∃ k, step s = .fault (.protocolViolation k) := by
  cases hi : s.inputs with
  | nil => exact .inl ⟨s, step_of_nil hi⟩
  | cons x rest =>
    rw [step_of_cons hi]
    exact takeInput_next_or_violation x _

/-- Settles O39: a step that does not answer a next state stops with a breach of the host protocol. -/
theorem noStepReadsWithoutValue : Obligations.NoStepReadsWithoutValue := by
  intro s
  obtain ⟨t, h⟩ | ⟨k, h⟩ := step_next_or_violation s <;> simp [h]

/-! ### The bits of an unseeded generator -/

/-- The state with other bits in STATE and INC. -/
def State.withGenerator (x y : U128) (s : State) : State := { s with state := x, inc := y }

/-- Two states agree but for the bits of STATE and INC, and in these too once seeded. -/
def AgreeOnceSeeded (s s' : State) : Prop :=
  s' = s.withGenerator s'.state s'.inc ∧ (s.seeded = true → s' = s)

/-- Two outcomes agree: next states that agree, or one and the same fault. -/
inductive AgreeingOutcomes : Outcome → Outcome → Prop where
  | next {t t' : State} (h : AgreeOnceSeeded t t') : AgreeingOutcomes (.next t) (.next t')
  | fault (f : Fault) : AgreeingOutcomes (.fault f) (.fault f)

theorem AgreeOnceSeeded.refl (s : State) : AgreeOnceSeeded s s := ⟨rfl, fun _ => rfl⟩

theorem agree_withGenerator (x y : U128) {s : State} (hs : s.seeded = false) :
    AgreeOnceSeeded s (s.withGenerator x y) :=
  ⟨rfl, fun h => absurd (hs.symm.trans h) Bool.false_ne_true⟩

/-- Executed on an unseeded core, a command does not see the bits of STATE and INC: a seeding overwrites them, and an
output command answers NOT_SEEDED (`42_output.md` R63). -/
theorem exec_withGenerator (i : Instr) (x y : U128) {s : State} (hs : s.seeded = false) :
    AgreeingOutcomes (exec i s) (exec i (s.withGenerator x y)) := by
  have hs' : (s.withGenerator x y).seeded = false := hs
  have hraise (e : Status) :
      AgreeingOutcomes (.next (raiseError e s)) (.next (raiseError e (s.withGenerator x y))) :=
    .next (agree_withGenerator x y (s := raiseError e s) hs)
  have hdraw : ∀ cmd, AgreeingOutcomes (draw cmd s) (draw cmd (s.withGenerator x y)) := by
    intro cmd
    rw [draw_eq, draw_eq, hs, hs']
    exact hraise .notSeeded
  cases i with
  | seedBytes len p =>
    by_cases hp : p.length = len.toNat
    · rcases Nat.lt_or_ge len.toNat 32 with hl | hl
      · rw [exec_seedBytes_short _ hp hl, exec_seedBytes_short _ hp hl]
        exact hraise .invalidSeedLength
      · rw [exec_seedBytes_long _ hp hl, exec_seedBytes_long _ hp hl]
        exact .next (.refl (seedWith p s))
    · rw [exec_seedBytes_mismatch _ hp, exec_seedBytes_mismatch _ hp]
      exact .fault _
  | seedEntropy => exact .next (agree_withGenerator x y (s := requestEntropy s) hs)
  | nextU64 => exact hdraw .nextU64
  | nextF64 => exact hdraw .nextF64
  | getstate => exact hraise .unsupported
  | setstate => exact hraise .unsupported

theorem acceptEntropy_withGenerator (a : EntropyAnswer) (x y : U128) {s : State} (hs : s.seeded = false) :
    AgreeingOutcomes (acceptEntropy a s) (acceptEntropy a (s.withGenerator x y)) := by
  cases hp : s.phase with
  | idle =>
    rw [acceptEntropy_idle a hp, acceptEntropy_idle a (s := s.withGenerator x y) hp]
    exact .next (agree_withGenerator x y hs)
  | waitEntropy =>
    cases a with
    | ok b =>
      rw [acceptEntropy_ok b hp, acceptEntropy_ok b (s := s.withGenerator x y) hp]
      exact .next (.refl (seedWith b.toList s))
    | unavailable =>
      rw [acceptEntropy_unavailable hp, acceptEntropy_unavailable (s := s.withGenerator x y) hp]
      exact .next (agree_withGenerator x y (s := raiseError .entropyUnavailable s) hs)

theorem takeInput_withGenerator (a : Input) (x y : U128) {s : State} (hs : s.seeded = false) :
    AgreeingOutcomes (takeInput a s) (takeInput a (s.withGenerator x y)) := by
  cases a with
  | command w p =>
    rw [takeInput_command, takeInput_command]
    obtain ⟨k, hk⟩ | ⟨i, hi⟩ | hill := acceptCommand_cases w p s.phase
    · rw [hk s rfl, hk (s.withGenerator x y) rfl]
      exact .fault _
    · rw [hi s rfl, hi (s.withGenerator x y) rfl]
      exact exec_withGenerator i x y hs
    · rw [hill s rfl, hill (s.withGenerator x y) rfl]
      exact .next (agree_withGenerator x y (s := raiseError .illegalCommand s) hs)
  | entropy a => exact acceptEntropy_withGenerator a x y hs
  | readResponse => exact .next (agree_withGenerator x y hs)
  | reset => exact .next (.refl (resetCore s))

theorem step_withGenerator (x y : U128) {s : State} (hs : s.seeded = false) :
    AgreeingOutcomes (step s) (step (s.withGenerator x y)) := by
  cases hi : s.inputs with
  | nil =>
    rw [step_of_nil hi, step_of_nil (s := s.withGenerator x y) hi]
    exact .next (agree_withGenerator x y hs)
  | cons a rest =>
    rw [step_of_cons hi, step_of_cons (s := s.withGenerator x y) hi]
    exact takeInput_withGenerator a x y (s := { s with inputs := rest }) hs

/-- A step keeps the agreement: seeded states that agree are the same, and an unseeded core does not see the bits. -/
theorem step_agree {s s' : State} (h : AgreeOnceSeeded s s') : AgreeingOutcomes (step s) (step s') := by
  obtain ⟨hbits, hseeded⟩ := h
  cases hs : s.seeded with
  | false =>
    rw [hbits]
    exact step_withGenerator _ _ hs
  | true =>
    rw [hseeded hs]
    obtain ⟨t, ht⟩ | ⟨k, hk⟩ := step_next_or_violation s
    · rw [ht]
      exact .next (.refl t)
    · rw [hk]
      exact .fault _

theorem run_agree (n : Nat) {s s' : State} (h : AgreeOnceSeeded s s') : AgreeingOutcomes (run n s) (run n s') := by
  induction n generalizing s s' with
  | zero => exact .next h
  | succ n ih =>
    have hstep := step_agree h
    unfold run
    generalize step s = o, step s' = o' at hstep
    cases hstep with
    | next ht => exact ih ht
    | fault f => exact .fault f

/-- Settles O50: the agreement of two states but for the bits of an unseeded generator is kept by every run. -/
theorem unseededBitsAreNeverObserved : Obligations.UnseededBitsAreNeverObserved := by
  intro n s x y hs
  have h : AgreeingOutcomes (run n s) (run n (s.withGenerator x y)) := run_agree n (agree_withGenerator x y hs)
  unfold State.withGenerator at h
  generalize run n s = o, run n { s with state := x, inc := y } = o' at h
  cases h with
  | next ht => exact ht
  | fault f => exact rfl

/-! ### Who writes which element -/

/-- Settles O42: among the effects, the two seedings set SEEDED, reset clears it, and no other writes it. -/
theorem seededIsWrittenBySeedingAndReset : Obligations.SeededIsWrittenBySeedingAndReset := by
  intro s t h
  obtain ⟨hi, rfl⟩ | ⟨x, rest, hi, hx⟩ := step_effect h <;> rw [hi]
  cases hx with
  | read => rfl
  | @lateEntropy a idle =>
    cases a with
    | ok b => simp [show s.phase = .idle from idle]
    | unavailable => rfl
  | reset => rfl
  | request => simp
  | seedBytes idle opc long => simp [opc, long]
  | seedEntropy waiting => simp [show s.phase = .waitEntropy from waiting]
  | unavailable => rfl
  | draw _ _ seeded => simp [show s.seeded = true from seeded]
  | @reject w p _ _ _ noSeed =>
    have hno : (w.toNat % 256 == 0x01 && decide (32 ≤ p.length)) = false := by simpa using noSeed
    show s.seeded = (s.seeded || (w.toNat % 256 == 0x01 && decide (32 ≤ p.length)))
    rw [hno, Bool.or_false]

/-- Settles O43: among the effects, only the two seedings and reset write INC. -/
theorem incIsWrittenBySeedingAndReset : Obligations.IncIsWrittenBySeedingAndReset := by
  intro s t h hne
  obtain ⟨-, rfl⟩ | ⟨x, rest, hi, hx⟩ := step_effect h
  · exact absurd rfl hne
  cases hx with
  | reset => exact .inl ⟨rest, hi⟩
  | seedBytes _ opc long => exact .inr (.inl ⟨_, _, rest, hi, opc, long, rfl⟩)
  | seedEntropy waiting => exact .inr (.inr ⟨_, rest, hi, waiting, rfl⟩)
  | read | lateEntropy | request | unavailable | draw | reject => exact absurd rfl hne

/-- Settles O44: among the effects, only the two seedings, a draw and reset write STATE. -/
theorem stateIsWrittenBySeedingDrawsAndReset : Obligations.StateIsWrittenBySeedingDrawsAndReset := by
  intro s t h hne
  obtain ⟨-, rfl⟩ | ⟨x, rest, hi, hx⟩ := step_effect h
  · exact absurd rfl hne
  cases hx with
  | reset => exact .inl ⟨rest, hi⟩
  | seedBytes _ opc long => exact .inr (.inl ⟨_, _, rest, hi, opc, long, rfl⟩)
  | seedEntropy waiting => exact .inr (.inr (.inl ⟨_, rest, hi, waiting, rfl⟩))
  | draw _ output seeded =>
    exact .inr (.inr (.inr ⟨_, rest, hi, output.imp (congrArg encodeWord) (congrArg encodeWord), seeded, rfl, rfl⟩))
  | read | lateEntropy | request | unavailable | reject => exact absurd rfl hne

/-- Settles O45: the effects that complete a command are those of `respond`. -/
theorem responseIsWrittenAtCompletionAndReset : Obligations.ResponseIsWrittenAtCompletionAndReset := by
  intro s t h
  obtain ⟨-, rfl⟩ | ⟨x, rest, hi, hx⟩ := step_effect h
  · exact .inr (.inr ⟨rfl, rfl, rfl, .inl rfl⟩)
  cases hx with
  | seedBytes | seedEntropy | unavailable | draw | reject => exact .inl ⟨rfl, rfl⟩
  | reset => exact .inr (.inl ⟨⟨rest, hi⟩, rfl, rfl, rfl, rfl⟩)
  | read | lateEntropy => exact .inr (.inr ⟨rfl, rfl, rfl, .inl rfl⟩)
  | request => exact .inr (.inr ⟨rfl, rfl, rfl, .inr ⟨⟨rest, hi⟩, rfl⟩⟩)

end Sys2Proof.Machine
end

section
/-! The proofs of the statements of `20_memory.md`: the command port runs what it decodes, an output command is never
idempotent, serialisation is little-endian, and runs compose in the order of their inputs. -/

namespace Sys2Proof.Machine

/-! ### The ports of an idle core -/

/-- An idle core executes a command whose payload is taken whole (`30_encoding.md` R39). -/
theorem acceptCommand_instr {w : CmdWord} {p : List Byte} {i : Instr} {s : State} (idle : s.phase = .idle)
    (hd : decode w p = .instr i []) : acceptCommand w p s = exec i s := by
  simp [acceptCommand, idle, hd]

/-- An idle core answers an illegal word without payload with ILLEGAL_COMMAND (`43_control.md` R67). -/
theorem acceptCommand_illegal {w : CmdWord} {p : List Byte} {why : IllegalReason} {s : State}
    (idle : s.phase = .idle) (hd : decode w p = .illegal why []) :
    acceptCommand w p s = .next (raiseError .illegalCommand s) := by
  simp [acceptCommand, idle, hd, execIllegal]

/-- Settles O33: the command port of an idle core executes the command it decodes; that the command is well formed is
not needed, since `exec` itself answers for the others. -/
theorem stepRunsDecodedCommand : Obligations.StepRunsDecodedCommand := by
  intro s w p rest i idle hi hd _
  rw [step_of_cons hi]
  exact acceptCommand_instr idle hd

/-- Settles O34: the response port writes nothing, so only the input is taken. -/
theorem readingResponseChangesNothing : Obligations.ReadingResponseChangesNothing :=
  fun _ _ hi => step_of_cons hi

/-! ### An output command moves STATE -/

/-- Bit 0 of a product by an odd factor is that of the other factor. -/
theorem getLsbD_zero_mul_of_odd {m : U128} (odd : m.getLsbD 0 = true) (s : U128) :
    (m * s).getLsbD 0 = s.getLsbD 0 := by
  have hodd : m.toNat % 2 = 1 := by simpa [BitVec.getLsbD] using odd
  simp [BitVec.getLsbD, BitVec.toNat_mul, Nat.mul_mod, hodd]

/-- The multiplier is odd, so the transition moves bit 0 of STATE by bit 0 of INC (`40_datapath.md` R45). -/
theorem lcg_getLsbD_zero (s inc : U128) : (lcg s inc).getLsbD 0 = (s.getLsbD 0 ^^ inc.getLsbD 0) := by
  have hmul : (MUL.setWidth 128 * s).getLsbD 0 = s.getLsbD 0 := getLsbD_zero_mul_of_odd (by decide) s
  rw [lcg, BitVec.getLsbD_add (by decide), hmul, BitVec.carry_zero, Bool.xor_false]

/-- With an odd increment no state is a fixed point of the transition. -/
theorem lcg_ne_self {s inc : U128} (odd : inc.getLsbD 0 = true) : lcg s inc ≠ s := by
  intro hfix
  have hbit : (lcg s inc).getLsbD 0 = !s.getLsbD 0 := by rw [lcg_getLsbD_zero, odd, Bool.xor_true]
  rw [hfix] at hbit
  simp at hbit

/-- What an output command does on a seeded core (`42_output.md` R61, R62). -/
theorem exec_output_seeded {i : Instr} {s : State} (hi : i = .nextU64 ∨ i = .nextF64) (hs : s.seeded = true) :
    exec i s = .next
      (respond .ok (select i .ok (dxsm (lcg s.state s.inc))) (writeState (lcg s.state s.inc) s)) := by
  have hdraw : exec i s = draw i s := by rcases hi with rfl | rfl <;> rfl
  rw [hdraw, draw_eq, if_pos hs]

theorem exec_output_unseeded {i : Instr} {s : State} (hi : i = .nextU64 ∨ i = .nextF64) (hs : s.seeded = false) :
    exec i s = .next (raiseError .notSeeded s) := by
  have hdraw : exec i s = draw i s := by rcases hi with rfl | rfl <;> rfl
  rw [hdraw, draw_eq, hs, if_neg Bool.false_ne_true]

/-- Settles O15: a draw writes the transition of STATE, which has no fixed point with INC odd (`10_state.md` R13). -/
theorem everyDrawMovesState : Obligations.EveryDrawMovesState :=
  fun _ _ hinv hs hi => ⟨_, exec_output_seeded hi hs, lcg_ne_self (hinv.incOdd hs), rfl⟩

/-! ### Serialisation -/

@[simp] theorem bytesLE_length {w : Nat} (v : BitVec w) (n : Nat) : (bytesLE v n).length = n := by
  induction n generalizing v with
  | zero => rfl
  | succ n ih => simp [bytesLE, ih]

/-- Byte k of a serialised value is its bits [8k+7:8k] (`20_memory.md` R24). -/
theorem bytesLE_getElem? {w n k : Nat} (v : BitVec w) (hk : k < n) :
    (bytesLE v n)[k]? = some (v.extractLsb' (8 * k) 8) := by
  induction n generalizing v k with
  | zero => omega
  | succ n ih =>
    cases k with
    | zero =>
      have hlow : v.setWidth 8 = v.extractLsb' (8 * 0) 8 := by
        ext j hj
        simp
      exact congrArg some hlow
    | succ k =>
      have hshift : (v >>> 8).extractLsb' (8 * k) 8 = v.extractLsb' (8 * (k + 1)) 8 := by
        ext j hj
        simp [Nat.mul_add, Nat.add_assoc, Nat.add_left_comm 8]
      simp [bytesLE, ih (v >>> 8) (Nat.lt_of_succ_lt_succ hk), hshift]

/-- Settles O23: RESP_DATA and the command word are serialised by `bytesLE`, and the payload follows the word. -/
theorem serialisationIsLittleEndian : Obligations.SerialisationIsLittleEndian := by
  refine ⟨fun s => ⟨bytesLE_length _ _, fun k hk => bytesLE_getElem? _ hk⟩, fun i => ?_⟩
  have hword : (bytesLE (encodeWord i) 4).length = 4 := bytesLE_length _ _
  refine ⟨by simp [commandBytes], List.drop_left' hword, fun k hk => ?_⟩
  rw [commandBytes, List.getElem?_append_left (by omega)]
  exact bytesLE_getElem? _ hk

/-! ### Runs in the order of their inputs -/

/-- What a command does depends on none of the inputs still to come. -/
theorem exec_withInputs {i : Instr} {s t : State} (h : exec i s = .next t) (zs : List Input) :
    exec i { s with inputs := zs } = .next { t with inputs := zs } := by
  rcases exec_next_cases h with ⟨_, _, rfl, hp, hl, rfl⟩ | ⟨_, _, rfl, hp, hl, rfl⟩ | ⟨rfl, rfl⟩ |
    ⟨hi, hs, rfl⟩ | ⟨hi, hs, rfl⟩ | ⟨rfl | rfl, rfl⟩
  · exact exec_seedBytes_short _ hp hl
  · exact exec_seedBytes_long _ hp hl
  · exact exec_seedEntropy _
  · exact exec_output_seeded hi hs
  · exact exec_output_unseeded hi hs
  · exact exec_getstate _
  · exact exec_setstate _

/-- What an input does depends on none of the inputs after it (`20_memory.md` R28). -/
theorem takeInput_withInputs {x : Input} {s t : State} (h : takeInput x s = .next t) (zs : List Input) :
    takeInput x { s with inputs := zs } = .next { t with inputs := zs } := by
  cases x with
  | command w p =>
    obtain ⟨idle, ⟨i, hd, he⟩ | ⟨why, hd, rfl⟩⟩ := acceptCommand_next_cases h
    · exact (acceptCommand_instr (s := { s with inputs := zs }) idle hd).trans (exec_withInputs he zs)
    · exact acceptCommand_illegal idle hd
  | entropy a =>
    obtain ⟨idle, rfl⟩ | ⟨waiting, ⟨b, rfl, rfl⟩ | ⟨rfl, rfl⟩⟩ := acceptEntropy_next_cases h
    · exact acceptEntropy_idle a idle
    · exact acceptEntropy_ok b waiting
    · exact acceptEntropy_unavailable waiting
  | readResponse =>
    cases h
    rfl
  | reset =>
    cases h
    rfl

/-- A run takes its oldest input and goes on with the rest. -/
theorem runInputs_cons_of_next {x : Input} {s u : State} (h : takeInput x s = .next u) (zs : List Input) :
    runInputs { s with inputs := x :: zs } = runInputs { u with inputs := zs } :=
  run_succ_of_next ((step_of_cons rfl).trans (takeInput_withInputs h zs))

theorem runInputs_cons_of_fault {x : Input} {s : State} {zs : List Input} {f : Fault}
    (h : takeInput x { s with inputs := zs } = .fault f) : runInputs { s with inputs := x :: zs } = .fault f :=
  run_succ_of_fault ((step_of_cons rfl).trans h)

/-- Settles O48, by induction on the first part: it goes through, so each of its inputs leads to a next state, and to
the same one whatever comes after. -/
theorem runsComposeInOrder : Obligations.RunsComposeInOrder := by
  intro s t xs ys h
  induction xs generalizing s with
  | nil =>
    cases h
    rfl
  | cons x xs ih =>
    obtain ⟨u, hu⟩ | ⟨k, hk⟩ := takeInput_next_or_violation x { s with inputs := xs }
    · have hrest : runInputs { u with inputs := xs } = .next t := (runInputs_cons_of_next hu xs).symm.trans h
      exact (runInputs_cons_of_next hu (xs ++ ys)).trans (ih u hrest)
    · exact nomatch (runInputs_cons_of_fault hk).symm.trans h

end Sys2Proof.Machine
end

section
/-! The proofs of the statements of `30_encoding.md`: decode and encode agree, each command has one response, the words
of each kind counted, and what the assembler reads and emits. -/

namespace Sys2Proof

/-! ### Decoding by the fields of a word -/

theorem toNat_ofNat_of_lt {w n : Nat} (h : n < 2 ^ w) : (BitVec.ofNat w n).toNat = n := by
  rw [BitVec.toNat_ofNat, Nat.mod_eq_of_lt h]

theorem opcField_eq_iff {w : CmdWord} {b : Byte} : opcField w = b ↔ w.toNat % 256 = b.toNat := by
  rw [← BitVec.toNat_inj, opcField_toNat]

theorem lenField_eq_zero_iff {w : CmdWord} : lenField w = 0 ↔ w.toNat / 256 = 0 := by
  rw [← BitVec.toNat_inj, lenField_toNat]
  rfl

/-- A word with the OPC of SEED_BYTES takes LEN bytes from the payload channel (`30_encoding.md` R34, R39). -/
theorem decode_of_opc_seedBytes {w : CmdWord} (h : w.toNat % 256 = 0x01) (channel : List Byte) :
    decode w channel = .instr (.seedBytes (lenField w) (channel.take (lenField w).toNat))
      (channel.drop (lenField w).toNat) :=
  if_pos (opcField_eq_iff.mpr h)

/-- A SEED_BYTES word is read with its own LEN, whatever payload it was written for. -/
theorem decode_seedBytes_word (len : Len) (p channel : List Byte) :
    decode (encodeWord (.seedBytes len p)) channel =
      .instr (.seedBytes len (channel.take len.toNat)) (channel.drop len.toNat) := by
  rw [decode, if_pos (opcField_seedBytes len p), lenField_seedBytes]

theorem payloadBytes_seedBytes_word (len : Len) (p : List Byte) :
    payloadBytes (encodeWord (.seedBytes len p)) = len.toNat := by
  rw [payloadBytes, if_pos (opcField_seedBytes len p), lenField_seedBytes]

theorem wf_seedBytes_iff {len : Len} {p : List Byte} : (Instr.seedBytes len p).wf = true ↔ p.length = len.toNat :=
  beq_iff_eq

/-- The decoder reads a SEED_BYTES. -/
def Decoded.isSeedBytes : Decoded → Bool
  | .instr (.seedBytes _ _) _ => true
  | _ => false

/-- The decoder answers ILLEGAL. -/
def Decoded.isIllegal : Decoded → Bool
  | .instr _ _ => false
  | .illegal _ _ => true

end Sys2Proof

namespace Sys2Proof.Machine

/-! ### Decode and encode -/

/-- Settles O20: a SEED_BYTES word carries the length of its payload, so exactly the payload is taken; the other words
take nothing. -/
theorem decodeOfEncode : Obligations.DecodeOfEncode := by
  intro i rest hwf
  cases i with
  | seedBytes len p =>
    have hlen : p.length = len.toNat := wf_seedBytes_iff.mp hwf
    rw [decode_seedBytes_word, encodePayload, List.take_left' hlen, List.drop_left' hlen]
  | seedEntropy | nextU64 | nextF64 | getstate | setstate => rfl

/-- Settles O21: a word is its two fields (`encode_of_decode_instr`), and the payload read is the first LEN bytes, which
are LEN many when the channel holds that many. -/
theorem encodeOfDecode : Obligations.EncodeOfDecode := by
  intro w channel rest i h
  obtain ⟨rfl, hp⟩ := encode_of_decode_instr h
  refine ⟨rfl, hp, ?_⟩
  cases i with
  | seedBytes len p =>
    rw [decode_seedBytes_word] at h
    cases h
    rw [wf_seedBytes_iff, payloadBytes_seedBytes_word, List.length_take, min_eq_left_iff]
  | seedEntropy | nextU64 | nextF64 | getstate | setstate => exact ⟨fun _ => Nat.zero_le _, fun _ => rfl⟩

/-! ### One response per command -/

/-- The commands a state has taken on: those that are answered, and the one that still waits (`30_encoding.md` R35). -/
def accepted (s : State) : Nat := s.responses.length + if s.phase = .waitEntropy then 1 else 0

theorem accepted_of_idle {s : State} (h : s.phase = .idle) : accepted s = s.responses.length := by
  simp [accepted, h]

theorem accepted_of_waiting {s : State} (h : s.phase = .waitEntropy) : accepted s = s.responses.length + 1 := by
  simp [accepted, h]

/-- At a completion every command taken on is answered, the one that completes among them. -/
theorem accepted_respond (st : Status) (d : U64) (s : State) :
    accepted (respond st d s) = s.responses.length + 1 := by
  rw [accepted_of_idle rfl, respond_responses, List.length_append, List.length_singleton]

/-- Every input but a reset takes on one command, if it is one, and none otherwise. -/
theorem InputEffect.accepted_eq {x : Input} {s t : State} (hx : InputEffect s x t) (hr : x ≠ .reset) :
    accepted t = accepted s + if x.isCommand then 1 else 0 := by
  cases hx with
  | read | lateEntropy => rfl
  | reset => exact absurd rfl hr
  | request idle => rw [accepted_of_waiting rfl, accepted_of_idle idle]; rfl
  | seedBytes idle | draw idle | reject idle => rw [accepted_of_idle idle]; exact accepted_respond _ _ _
  | seedEntropy waiting | unavailable waiting => rw [accepted_of_waiting waiting]; exact accepted_respond _ _ _

/-- A run without a reset takes on the commands among its inputs. -/
theorem accepted_runInputs {xs : List Input} {s t : State} (hr : .reset ∉ xs)
    (h : runInputs { s with inputs := xs } = .next t) : accepted t = accepted s + xs.countP Input.isCommand := by
  induction xs generalizing s with
  | nil =>
    cases h
    rfl
  | cons x xs ih =>
    rw [List.mem_cons, not_or] at hr
    obtain ⟨u, hu⟩ | ⟨k, hk⟩ := takeInput_next_or_violation x { s with inputs := xs }
    · have hfirst : accepted u = accepted s + if x.isCommand then 1 else 0 :=
        (takeInput_effect hu).accepted_eq (Ne.symm hr.1)
      have hrest : accepted t = accepted u + xs.countP Input.isCommand :=
        ih hr.2 ((runInputs_cons_of_next hu xs).symm.trans h)
      rw [hrest, hfirst, List.countP_cons, Nat.add_right_comm, Nat.add_assoc]
    · exact nomatch (runInputs_cons_of_fault hk).symm.trans h

/-- Settles O46: the commands taken on are those answered and the one that waits. -/
theorem oneResponsePerCommand : Obligations.OneResponsePerCommand :=
  fun _ _ hr h => accepted_runInputs hr h

/-! ### The words of each kind, counted -/

theorem isSeedBytes_decode_iff (w : CmdWord) (p : List Byte) :
    (decode w p).isSeedBytes = true ↔ w.toNat % 256 = 0x01 := by
  constructor
  · intro h
    cases hd : decode w p with
    | instr i rest =>
      cases i with
      | seedBytes => exact opc_of_decode_seedBytes hd
      | seedEntropy | nextU64 | nextF64 | getstate | setstate =>
        rw [hd] at h
        exact nomatch h
    | illegal =>
      rw [hd] at h
      exact nomatch h
  · intro h
    rw [decode_of_opc_seedBytes h]
    rfl

/-- A word is illegal exactly where no command is encoded as it. -/
theorem isIllegal_decode_iff (w : CmdWord) (p : List Byte) :
    (decode w p).isIllegal = true ↔ ¬ ∃ i, encodeWord i = w := by
  constructor
  · rintro h ⟨i, rfl⟩
    cases i with
    | seedBytes len q =>
      rw [decode_seedBytes_word] at h
      exact nomatch h
    | seedEntropy | nextU64 | nextF64 | getstate | setstate => exact nomatch h
  · intro h
    cases hd : decode w p with
    | instr i rest => exact absurd ⟨i, (encode_of_decode_instr hd).1⟩ h
    | illegal => rfl

/-- The commands that are one word each (`30_encoding.md` R36). -/
def plainCommands : List Instr := [.seedEntropy, .nextU64, .nextF64, .getstate, .setstate]

/-- Their words, as numbers. -/
def plainWords : Finset Nat := (plainCommands.map fun i => (encodeWord i).toNat).toFinset

theorem mem_plainWords {n : Nat} : n ∈ plainWords ↔ ∃ i ∈ plainCommands, (encodeWord i).toNat = n := by
  simp [plainWords]

/-- The words of R36: those with the OPC of SEED_BYTES, and the five others. -/
theorem exists_encodeWord_iff (w : CmdWord) :
    (∃ i, encodeWord i = w) ↔ w.toNat % 256 = 0x01 ∨ w.toNat ∈ plainWords := by
  constructor
  · rintro ⟨i, rfl⟩
    cases i with
    | seedBytes len p =>
      rw [seedBytes_word_toNat]
      exact .inl (by omega)
    | seedEntropy | nextU64 | nextF64 | getstate | setstate => exact .inr (by decide)
  · rintro (hw | hw)
    · exact ⟨.seedBytes (lenField w) [],
        cmdWord_ext ((opcField_seedBytes _ _).trans (opcField_eq_iff.mpr hw).symm) (lenField_seedBytes _ _)⟩
    · obtain ⟨i, -, hi⟩ := mem_plainWords.mp hw
      exact ⟨i, BitVec.eq_of_toNat_eq hi⟩

theorem count_eq_of_iff {p q : Nat → Prop} [DecidablePred p] [DecidablePred q] {n : Nat}
    (h : ∀ k < n, (p k ↔ q k)) : Nat.count p n = Nat.count q n :=
  le_antisymm (Nat.count_mono_left fun k hk => (h k hk).mp) (Nat.count_mono_left fun k hk => (h k hk).mpr)

theorem count_seedBytes_words :
    Nat.count (fun n => (decode (BitVec.ofNat 32 n) []).isSeedBytes = true) (2 ^ 32) = 2 ^ 24 :=
  calc
    _ = Nat.count (· ≡ 1 [MOD 256]) (2 ^ 32) := count_eq_of_iff fun n hn => by
      rw [isSeedBytes_decode_iff, toNat_ofNat_of_lt hn]
      rfl
    _ = 2 ^ 24 := Nat.count_modEq_card _ (by decide) _

/-- A command without an operand is read from its own word, and from no other. -/
theorem decode_plain_iff {i : Instr} (hi : i ∈ plainCommands) (w : CmdWord) :
    decode w [] = .instr i [] ↔ encodeWord i = w := by
  constructor
  · exact fun h => (encode_of_decode_instr h).1
  · rintro rfl
    have hplain : ∀ i ∈ plainCommands, decode (encodeWord i) [] = .instr i [] := by decide
    exact hplain i hi

theorem count_plain_words {i : Instr} (hi : i ∈ plainCommands) :
    Nat.count (fun n => decode (BitVec.ofNat 32 n) [] = .instr i []) (2 ^ 32) = 1 :=
  calc
    _ = Nat.count (· = (encodeWord i).toNat) (2 ^ 32) := count_eq_of_iff fun n hn => by
      rw [decode_plain_iff hi, ← BitVec.toNat_inj, toNat_ofNat_of_lt hn, eq_comm]
    _ = 1 := by
      rw [Nat.count_eq_card_filter_range, Finset.filter_eq', if_pos (Finset.mem_range.mpr (encodeWord i).isLt),
        Finset.card_singleton]

theorem count_illegal_words :
    Nat.count (fun n => (decode (BitVec.ofNat 32 n) []).isIllegal = true) (2 ^ 32) = 2 ^ 32 - 2 ^ 24 - 5 := by
  have hillegal : {n ∈ Finset.range (2 ^ 32) | (decode (BitVec.ofNat 32 n) []).isIllegal = true} =
      (Finset.range (2 ^ 32) \ {n ∈ Finset.range (2 ^ 32) | n ≡ 1 [MOD 256]}) \ plainWords := by
    ext n
    rw [Finset.mem_filter, Finset.mem_sdiff, Finset.mem_sdiff, Finset.mem_filter, and_assoc]
    refine and_congr_right fun hn => ?_
    rw [isIllegal_decode_iff, exists_encodeWord_iff, toNat_ofNat_of_lt (Finset.mem_range.mp hn), not_or,
      and_iff_right hn]
    rfl
  have hplain : plainWords ⊆ Finset.range (2 ^ 32) \ {n ∈ Finset.range (2 ^ 32) | n ≡ 1 [MOD 256]} := by
    intro n hn
    obtain ⟨i, hi, rfl⟩ := mem_plainWords.mp hn
    have hopc : (encodeWord i).toNat % 256 ≠ 1 := encodeWord_opc i hi
    simp [Nat.ModEq, hopc, (encodeWord i).isLt]
  rw [Nat.count_eq_card_filter_range, hillegal, Finset.card_sdiff_of_subset hplain,
    Finset.card_sdiff_of_subset (Finset.filter_subset _ _), Finset.card_range, ← Nat.count_eq_card_filter_range,
    Nat.count_modEq_card _ (by decide)]
  rfl

/-- Settles O19: the decoder's tests on the two fields are those of R39 on the number of the word, and the words of each
kind are counted as such numbers. -/
theorem decodeIsTotalAndCounted : Obligations.DecodeIsTotalAndCounted := by
  refine ⟨fun w p => ?_, count_seedBytes_words, fun i hi => count_plain_words hi, count_illegal_words⟩
  have hlen := lenField_toNat w
  simp only [decode, ne_eq, lenField_eq_zero_iff, opcField_eq_iff, OPC_SEED_BYTES, OPC_SEED_ENTROPY, OPC_NEXT_U64,
    OPC_NEXT_F64, OPC_GETSTATE, OPC_SETSTATE, BitVec.reduceToNat]
  split_ifs
  · exact ⟨lenField w, hlen, rfl⟩
  iterate 5 rfl
  · exact ⟨.reservedOpcode, rfl⟩
  · exact ⟨.nonzeroZ, rfl⟩

/-! ### The assembler -/

/-- What stands between an opening word and a closing character is found there. -/
theorem between_enclosed (opening body : List Char) (c : Char) :
    between opening c (opening ++ body ++ [c]) = some body := by
  simp [between]

theorem hexValue_hexChar : ∀ n < 16, hexValue (hexChar n) = some n := by decide

/-- The two hexadecimal digits of a byte are read as that byte, before the bytes of the text behind them. -/
theorem parseHexBytes_hexChars_append (b : Byte) (text : List Char) :
    parseHexBytes (hexChars b.toNat 2 ++ text) = (parseHexBytes text).map (b :: ·) := by
  have hhigh : hexValue (hexChar (b.toNat / 16 % 16)) = some (b.toNat / 16 % 16) :=
    hexValue_hexChar _ (Nat.mod_lt _ (by decide))
  have hlow : hexValue (hexChar (b.toNat % 16)) = some (b.toNat % 16) :=
    hexValue_hexChar _ (Nat.mod_lt _ (by decide))
  have hbyte : BitVec.ofNat 8 (16 * (b.toNat / 16 % 16) + b.toNat % 16) = b := by
    apply BitVec.eq_of_toNat_eq
    rw [BitVec.toNat_ofNat]
    omega
  simp only [hexChars, List.nil_append, List.cons_append, parseHexBytes, hhigh, hlow]
  cases parseHexBytes text with
  | none => rfl
  | some bs => exact congrArg (fun c => some (c :: bs)) hbyte

theorem parseHexBytes_flatMap_hexChars (bs : List Byte) :
    parseHexBytes (bs.flatMap fun b => hexChars b.toNat 2) = some bs := by
  induction bs with
  | nil => rfl
  | cons b bs ih => rw [List.flatMap_cons, parseHexBytes_hexChars_append, ih, Option.map_some]

/-- Settles O51: the digits between the quotes are read pair by pair, by induction on the payload. -/
theorem hexPayloadIsReadLeftmostPairFirst : Obligations.HexPayloadIsReadLeftmostPairFirst := by
  intro bs
  rw [parsePayload, between_enclosed]
  exact congrArg (Option.map PayloadText.hex) (parseHexBytes_flatMap_hexChars bs)

/-- LEN counts every payload of fewer than 2^24 bytes (`30_encoding.md` R33). -/
theorem wf_seedBytesOf {p : List Byte} (h : p.length < 2 ^ 24) : (seedBytesOf p).wf = true :=
  wf_seedBytes_iff.mpr (toNat_ofNat_of_lt h).symm

theorem seedBytesOf_word_toNat {p : List Byte} (h : p.length < 2 ^ 24) :
    (encodeWord (seedBytesOf p)).toNat = 1 + 256 * p.length := by
  rw [seedBytesOf, seedBytes_word_toNat, toNat_ofNat_of_lt h]

theorem decode_seedBytesOf {p : List Byte} (h : p.length < 2 ^ 24) :
    decode (encodeWord (seedBytesOf p)) p = .instr (seedBytesOf p) [] := by
  have hdecode := decodeOfEncode (seedBytesOf p) [] (wf_seedBytesOf h)
  rwa [List.append_nil] at hdecode

/-- A SEED_BYTES word that asks for a payload and comes without one is a breach of the host protocol
(`30_encoding.md` R42, `60_exceptions.md` R76). -/
theorem acceptCommand_seedBytes_without_payload {w : CmdWord} {s : State} (idle : s.phase = .idle)
    (hop : w.toNat % 256 = 0x01) (hlen : w.toNat / 256 ≠ 0) :
    acceptCommand w [] s = .fault (.protocolViolation .payloadLength) := by
  have hdecode : decode w [] = .instr (.seedBytes (lenField w) []) [] := by
    rw [decode_of_opc_seedBytes hop, List.take_nil, List.drop_nil]
  have hshort : ([] : List Byte).length ≠ (lenField w).toNat := by
    rw [lenField_toNat]
    exact hlen.symm
  rw [acceptCommand_instr idle hdecode, exec_seedBytes_mismatch s hshort]

/-- Settles O24: a payload text that LEN can count is the well-formed SEED_BYTES of its bytes; the plain lines and the
texts of all lines are evaluated. -/
theorem assembledLinesAreSingleCommands : Obligations.AssembledLinesAreSingleCommands := by
  refine ⟨⟨fun _ => rfl, fun _ => rfl, fun _ _ => rfl⟩, fun q hq => ?_, fun q hq => ?_, ?_, ?_, fun _ => rfl,
    fun w s rest hop hlen idle hi => ?_⟩
  · exact ⟨_, _, toNat_ofNat_of_lt hq, seedBytesOf_word_toNat hq, if_pos hq, wf_seedBytesOf hq, decode_seedBytesOf hq⟩
  · exact if_neg (Nat.not_lt.mpr hq)
  · decide
  · decide
  · rw [step_of_cons hi]
    exact acceptCommand_seedBytes_without_payload idle hop hlen

/-! ### Sample words -/

/-- Settles O22, by evaluation of the decoder. -/
theorem sampleWordsDecode : Obligations.SampleWordsDecode := by
  unfold Obligations.SampleWordsDecode
  decide

end Sys2Proof.Machine
end

section
/-! The proofs of the statements of `40_datapath.md`: the byte assembly, the transition, the half split and the
permutation in exact arithmetic, the float converter by the fields of its encodings, and the output selector. -/

namespace Sys2Proof.Machine

/-! ### Little-endian assembly -/

/-- Two values in disjoint bit positions are put together by adding. -/
theorem toNat_shiftLeft_or {w k : Nat} {x y : BitVec w} (hx : 2 ^ k * x.toNat < 2 ^ w) (hy : y.toNat < 2 ^ k) :
    (x <<< k ||| y).toNat = 2 ^ k * x.toNat + y.toNat := by
  rw [BitVec.toNat_or, BitVec.toNat_shiftLeft, Nat.shiftLeft_eq, Nat.mul_comm, Nat.mod_eq_of_lt hx,
    Nat.two_pow_add_eq_or_of_lt hy]

theorem le128_cons_toNat {bs : List Byte} (hbs : (le128 bs).toNat < 2 ^ 120) (x : Byte) :
    (le128 (x :: bs)).toNat = 2 ^ 8 * (le128 bs).toNat + x.toNat := by
  have hx : (x.setWidth 128).toNat = x.toNat := BitVec.toNat_setWidth_of_le (by decide)
  rw [le128, toNat_shiftLeft_or (by omega) (hx ▸ x.isLt), hx]

/-- n bytes assemble to a value of 8n bits. -/
theorem le128_lt {bs : List Byte} (h : bs.length ≤ 16) : (le128 bs).toNat < 2 ^ (8 * bs.length) := by
  induction bs with
  | nil => decide
  | cons x bs ih =>
    rw [List.length_cons] at h ⊢
    have hlt := ih (by omega)
    have hle : 2 ^ (8 * bs.length) ≤ 2 ^ 120 := Nat.pow_le_pow_right (by decide) (by omega)
    have hx := x.isLt
    rw [le128_cons_toNat (hlt.trans_le hle) x, Nat.mul_add, Nat.pow_add]
    omega

/-- Byte i of at most 16 has the weight 2^(8i) (`40_datapath.md` R44). -/
theorem le128_toNat {bs : List Byte} (h : bs.length ≤ 16) :
    (le128 bs).toNat = ((List.range bs.length).map fun i => (bs.getD i 0).toNat * 2 ^ (8 * i)).sum := by
  induction bs with
  | nil => rfl
  | cons x bs ih =>
    rw [List.length_cons] at h
    have hlt : (le128 bs).toNat < 2 ^ 120 :=
      (le128_lt (by omega)).trans_le (Nat.pow_le_pow_right (by decide) (by omega))
    have hweight (c i : Nat) : 256 * (c * 2 ^ (8 * i)) = c * 2 ^ (8 * (i + 1)) := by ring
    rw [le128_cons_toNat hlt x, ih (by omega), List.length_cons, List.range_succ_eq_map,
      ← List.sum_map_mul_left]
    simp [hweight, Function.comp_def, Nat.add_comm]

/-- Bits [8i+7:8i] of an assembled value are byte i (`40_datapath.md` R44). -/
theorem le128_extractLsb' {bs : List Byte} {i : Nat} (hi : i < bs.length) (h16 : i < 16) :
    (le128 bs).extractLsb' (8 * i) 8 = bs[i] := by
  induction bs generalizing i with
  | nil => simp at hi
  | cons x bs ih =>
    cases i with
    | zero =>
      ext j hj
      have hwidth : j < 128 := by omega
      simp [le128, hj, hwidth]
    | succ i =>
      rw [List.getElem_cons_succ, ← ih (Nat.lt_of_succ_lt_succ hi) (by omega)]
      ext j hj
      have hpos : 8 * (i + 1) + j = 8 + (8 * i + j) := by omega
      have hwidth : 8 + (8 * i + j) < 128 := by omega
      simpa [le128, hpos] using fun _ : (le128 bs).getLsbD (8 * i + j) = true => hwidth

/-- Settles O25, by induction on the bytes: the sum and the bit positions of Horner's form. -/
theorem littleEndianAssembly : Obligations.LittleEndianAssembly := by
  intro b hb
  refine ⟨?_, fun i hi => ?_⟩
  · rw [le128_toNat hb.le, hb]
  · have hib : i < b.length := hb ▸ hi
    rw [List.getElem?_eq_getElem hib, le128_extractLsb' hib hi]

/-! ### The transition and the half split -/

/-- Settles O26: sum and product of bit vectors are those of the numbers, reduced. -/
theorem lcgIsModular : Obligations.LcgIsModular := by
  intro s inc
  have hmul : (MUL.setWidth 128).toNat = 15750249268501108917 := by decide
  rw [lcg, BitVec.toNat_add, BitVec.toNat_mul, hmul, Nat.mod_add_mod]

theorem high_toNat (s : U128) : (high s).toNat = s.toNat / 2 ^ 64 := by
  have hlt : s.toNat / 2 ^ 64 < 2 ^ 64 := Nat.div_lt_of_lt_mul s.isLt
  rw [high, BitVec.extractLsb'_toNat, Nat.shiftRight_eq_div_pow, Nat.mod_eq_of_lt hlt]

theorem low_toNat (s : U128) : (low s).toNat = s.toNat % 2 ^ 64 ||| 1 := by
  simp [low]

theorem low_odd (s : U128) : (low s).toNat % 2 = 1 := by
  simp [low_toNat]

/-- Settles O27: the two halves by their numbers. -/
theorem halfSplitForcesOddLow : Obligations.HalfSplitForcesOddLow :=
  fun s => ⟨high_toNat s, low_toNat s, low_odd s⟩

/-! ### The DXSM permutation -/

theorem xorshift_toNat (n : Nat) (h : U64) : (xorshift n h).toNat = h.toNat ^^^ (h.toNat >>> n) := by
  rw [xorshift, BitVec.toNat_xor, BitVec.toNat_ushiftRight]

/-- Only 0 is its own right shift, so an xorshift gives 0 of 0 alone. -/
theorem xorshift_eq_zero_iff {n : Nat} (hn : 0 < n) {h : U64} : xorshift n h = 0 ↔ h = 0 := by
  constructor
  · intro hz
    have hfix : h.toNat = h.toNat / 2 ^ n := by
      rw [← Nat.shiftRight_eq_div_pow, ← BitVec.toNat_ushiftRight, ← BitVec.xor_eq_zero_iff.mp hz]
    refine BitVec.eq_of_toNat_eq (Nat.eq_zero_of_not_pos fun hpos => ?_)
    exact absurd hfix (Nat.div_lt_self hpos (Nat.one_lt_two_pow hn.ne')).ne'
  · rintro rfl
    simp [xorshift]

/-- An odd factor is a unit modulo 2^64, so a product by it is 0 only where the other factor is. -/
theorem mul_eq_zero_iff_of_odd {a x : U64} (odd : a.toNat % 2 = 1) : a * x = 0 ↔ x = 0 := by
  constructor
  · intro hz
    have hdvd : 2 ^ 64 ∣ a.toNat * x.toNat :=
      Nat.dvd_of_mod_eq_zero ((BitVec.toNat_mul a x).symm.trans (congrArg BitVec.toNat hz))
    have hcop : Nat.Coprime (2 ^ 64) a.toNat :=
      (Nat.coprime_two_left.mpr (Nat.odd_iff.mpr odd)).pow_left 64
    exact BitVec.eq_of_toNat_eq (Nat.eq_zero_of_dvd_of_lt (hcop.dvd_of_dvd_mul_left hdvd) x.isLt)
  · rintro rfl
    exact BitVec.mul_zero

/-- Each stage of the permutation gives 0 of 0 alone (`40_datapath.md` R47). -/
theorem dxsm_eq_zero_iff (s : U128) : dxsm s = 0 ↔ high s = 0 := by
  rw [dxsm, BitVec.mul_comm, mul_eq_zero_iff_of_odd (low_odd s), xorshift_eq_zero_iff (by decide),
    mul_eq_zero_iff_of_odd (by decide), xorshift_eq_zero_iff (by decide)]

/-- Settles O28: the stages by their numbers, and each of them gives 0 of 0 alone. -/
theorem dxsmFollowsStages : Obligations.DxsmFollowsStages := by
  intro s
  have hmul : MUL.toNat = 15750249268501108917 := by decide
  constructor
  · simp only [dxsm, BitVec.toNat_mul, xorshift_toNat, hmul, XS1, XS2]
  · rw [dxsm_eq_zero_iff, ← high_toNat, ← BitVec.toNat_inj]
    rfl

/-! ### The float converter -/

theorem mantissa_toNat (u : U64) : (mantissa u).toNat = u.toNat / 2 ^ 11 := by
  rw [mantissa, BitVec.toNat_ushiftRight, Nat.shiftRight_eq_div_pow, F_SHIFT]

theorem mantissa_lt (u : U64) : (mantissa u).toNat < 2 ^ 53 := by
  have h := u.isLt
  rw [mantissa_toNat]
  omega

theorem f64bits_of_mantissa_zero {u : U64} (h : mantissa u = 0) : f64bits u = 0 := by
  simp [f64bits, h]

theorem signBit_eq (x : U64) : signBit x = decide (2 ^ 63 ≤ x.toNat) := BitVec.msb_eq_decide x

theorem biasedExponent_eq (x : U64) : biasedExponent x = x.toNat / 2 ^ 52 % 2 ^ 11 := by
  simp [biasedExponent, Nat.shiftRight_eq_div_pow]

theorem fraction_eq (x : U64) : fraction x = x.toNat % 2 ^ 52 := by
  simp [fraction]

/-- The encoding of m ≠ 0 as a number, with 2^e the leading 1 of m: from bit 52 on the exponent 970 + e, and below it
m without its leading 1, moved up to fill the 52 bits of the fraction (`40_datapath.md` R48). -/
theorem f64bits_toNat {u : U64} {m e : Nat} (hm : (mantissa u).toNat = m) (hpos : m ≠ 0) (he : Nat.log2 m = e)
    (hfrac : 2 ^ (52 - e) * (m - 2 ^ e) < 2 ^ 52) :
    (f64bits u).toNat = 2 ^ 52 * (970 + e) + 2 ^ (52 - e) * (m - 2 ^ e) := by
  have hm53 : m < 2 ^ 53 := hm ▸ mantissa_lt u
  have he53 : e < 53 := he ▸ (Nat.log2_lt hpos).mpr hm53
  have hle : 2 ^ e ≤ m := he ▸ Nat.log2_self_le hpos
  have hne : mantissa u ≠ 0 := fun hz => hpos (hm ▸ congrArg BitVec.toNat hz)
  have hexp : (BitVec.ofNat 64 (970 + e)).toNat = 970 + e := by
    rw [BitVec.toNat_ofNat]
    omega
  have hone : (BitVec.twoPow 64 e).toNat = 2 ^ e := by
    rw [BitVec.toNat_twoPow, Nat.mod_eq_of_lt (by omega)]
  have hrest : (mantissa u - BitVec.twoPow 64 e).toNat = m - 2 ^ e := by
    rw [BitVec.toNat_sub_of_le (BitVec.le_def.mpr (by omega)), hm, hone]
  have hshift : ((mantissa u - BitVec.twoPow 64 e) <<< (52 - e)).toNat = 2 ^ (52 - e) * (m - 2 ^ e) := by
    rw [BitVec.toNat_shiftLeft, hrest, Nat.shiftLeft_eq, Nat.mul_comm]
    omega
  simp only [f64bits, hne, if_false, hm, he]
  rw [toNat_shiftLeft_or (by omega) (by omega), hexp, hshift]

/-- The fields of the encoding of m ≠ 0, with 2^e the leading 1 of m (`40_datapath.md` R48). -/
theorem f64bits_fields {u : U64} (h : mantissa u ≠ 0) :
    ∃ e ≤ 52, 2 ^ e ≤ (mantissa u).toNat ∧ signBit (f64bits u) = false ∧ biasedExponent (f64bits u) = 970 + e ∧
      fraction (f64bits u) = 2 ^ (52 - e) * ((mantissa u).toNat - 2 ^ e) := by
  obtain ⟨m, hm⟩ : ∃ m, (mantissa u).toNat = m := ⟨_, rfl⟩
  have hpos : m ≠ 0 := fun hz => h (BitVec.eq_of_toNat_eq (hm.trans hz))
  have he : Nat.log2 m ≤ 52 := Nat.lt_succ_iff.mp ((Nat.log2_lt hpos).mpr (hm ▸ mantissa_lt u))
  have hfrac : 2 ^ (52 - Nat.log2 m) * (m - 2 ^ Nat.log2 m) < 2 ^ 52 :=
    calc
      _ < 2 ^ (52 - Nat.log2 m) * 2 ^ Nat.log2 m := by
        have hlt : m < 2 ^ (Nat.log2 m + 1) := Nat.lt_log2_self
        exact Nat.mul_lt_mul_of_pos_left (by omega) (Nat.two_pow_pos _)
      _ = 2 ^ 52 := by rw [← Nat.pow_add, Nat.sub_add_cancel he]
  have hbits := f64bits_toNat hm hpos rfl hfrac
  refine ⟨Nat.log2 m, he, hm.symm ▸ Nat.log2_self_le hpos, ?_, ?_, ?_⟩
  · rw [signBit_eq, hbits, decide_eq_false_iff_not]
    omega
  · rw [biasedExponent_eq, hbits]
    omega
  · rw [fraction_eq, hbits, hm]
    omega

theorem binary64_zero : binary64 0 = some 0 := by
  have hexp : biasedExponent 0#64 = 0 := by decide
  have hfrac : fraction 0#64 = 0 := by decide
  simp [binary64, hexp, hfrac]

/-- What a positive normal encoding stands for (`00_scope.md` R10). -/
theorem binary64_of_normal {x : U64} (hsign : signBit x = false) (hpos : biasedExponent x ≠ 0)
    (hfin : biasedExponent x ≠ 2047) :
    binary64 x = some ((2 ^ 52 + (fraction x : ℚ)) * 2 ^ biasedExponent x / 2 ^ 1075) := by
  simp [binary64, hsign, hpos, hfin]

/-- Settles O29: with the implicit leading 1 put back, the significand is m * 2^(52-e), and the exponent field takes the
2^(52-e) away. -/
theorem floatConversionIsExact : Obligations.FloatConversionIsExact := by
  intro u
  change binary64 (f64bits u) = some (((mantissa u).toNat : ℚ) / 2 ^ 53)
  by_cases hz : mantissa u = 0
  · rw [f64bits_of_mantissa_zero hz, binary64_zero, hz]
    simp
  · obtain ⟨e, he, hle, hsign, hexp, hfrac⟩ := f64bits_fields hz
    have hsignificand : 2 ^ 52 + fraction (f64bits u) = 2 ^ (52 - e) * (mantissa u).toNat := by
      rw [hfrac, ← Nat.sub_add_cancel he, Nat.pow_add, Nat.add_sub_cancel, ← Nat.mul_add, Nat.add_sub_of_le hle]
    have hscale : (2 : ℚ) ^ (52 - e) * 2 ^ (970 + e) = 2 ^ 1022 := by
      rw [← pow_add]
      congr 1
      omega
    have hunit : (2 : ℚ) ^ 1075 = 2 ^ 1022 * 2 ^ 53 := pow_add 2 1022 53
    rw [binary64_of_normal hsign (by omega) (by omega), hexp, hunit]
    congr 1
    calc
      _ = 2 ^ (52 - e) * ((mantissa u).toNat : ℚ) * 2 ^ (970 + e) / (2 ^ 1022 * 2 ^ 53) := by
        congr 2
        exact_mod_cast hsignificand
      _ = ((mantissa u).toNat : ℚ) / 2 ^ 53 := by
        rw [mul_right_comm, hscale, mul_div_mul_left _ _ (pow_ne_zero _ two_ne_zero)]

/-- Settles O30: the fields of the encoding, and the bound on m. -/
theorem floatRange : Obligations.FloatRange := by
  intro u
  have hm : ((mantissa u).toNat : ℚ) ≤ 2 ^ 53 - 1 := by
    have h : (mantissa u).toNat + 1 ≤ 2 ^ 53 := mantissa_lt u
    exact le_sub_iff_add_le.mpr (by exact_mod_cast h)
  have hvalue : 0 ≤ value u ∧ value u ≤ 1 - 1 / 2 ^ 53 := by
    rw [value, F_SCALE]
    constructor
    · positivity
    · linarith
  by_cases hz : mantissa u = 0
  · exact ⟨by rw [f64bits_of_mantissa_zero hz, signBit_eq]; decide, .inl (f64bits_of_mantissa_zero hz), hvalue⟩
  · obtain ⟨e, he, -, hsign, hexp, -⟩ := f64bits_fields hz
    exact ⟨hsign, .inr (by omega), hvalue⟩

/-- Settles O31: the encoding is made from m alone, and `floatConversionIsExact` reads m back from it. -/
theorem floatSeesExactlyTheUpper53Bits : Obligations.FloatSeesExactlyTheUpper53Bits := by
  intro u v
  rw [← mantissa_toNat, ← mantissa_toNat]
  constructor
  · intro h
    have hvalue := (floatConversionIsExact u).symm.trans ((congrArg binary64 h).trans (floatConversionIsExact v))
    have hq : ((mantissa u).toNat : ℚ) / 2 ^ 53 = (mantissa v).toNat / 2 ^ 53 := Option.some.inj hvalue
    exact_mod_cast (div_left_inj' (by positivity)).mp hq
  · intro h
    rw [f64bits, f64bits, BitVec.eq_of_toNat_eq h]

/-! ### The output selector -/

/-- The words of the output commands are read as them, whatever bytes come with them (`30_encoding.md` R39). -/
theorem decode_output {i : Instr} (hi : i = .nextU64 ∨ i = .nextF64) (p : List Byte) :
    decode (encodeWord i) p = .instr i p := by
  rcases hi with rfl | rfl <;> rfl

/-- An output command that a seeded core takes completes with OK and the data selected from the new STATE
(`42_output.md` R61, R62). -/
theorem step_output_seeded {i : Instr} {p : List Byte} {rest : List Input} {s t : State}
    (hi : i = .nextU64 ∨ i = .nextF64) (hin : s.inputs = .command (encodeWord i) p :: rest) (hs : s.seeded = true)
    (h : step s = .next t) : t.respStatus = 0x00 ∧ t.respData = select i .ok (dxsm t.state) := by
  rw [step_of_cons hin] at h
  obtain ⟨-, ⟨j, hd, he⟩ | ⟨why, hd, -⟩⟩ := acceptCommand_next_cases h
  · obtain ⟨rfl, -⟩ := Decoded.instr.inj ((decode_output hi p).symm.trans hd)
    rw [exec_output_seeded (s := { s with inputs := rest }) hi hs] at he
    obtain rfl := Host.Outcome.next.inj he
    exact ⟨rfl, rfl⟩
  · cases (decode_output hi p).symm.trans hd

/-- A completion delivers the response registers (`30_encoding.md` R35). -/
theorem delivered_eq {s t : State} {r : Response} (h : step s = .next t) (hr : t.responses = s.responses ++ [r]) :
    r = ⟨t.respStatus, t.respData⟩ := by
  obtain ⟨hnew, -⟩ | ⟨-, hold, -⟩ | ⟨hold, -⟩ := responseIsWrittenAtCompletionAndReset s t h
  · simpa using hr.symm.trans hnew
  · simp [hold] at hr
  · simp [hold] at hr

/-- Every completion but a draw carries the data 0 (`40_datapath.md` R49). -/
theorem InputEffect.completion_cases {x : Input} {s t : State} (hx : InputEffect s x t)
    (hc : t.responses ≠ s.responses) :
    t.respData = 0 ∨
    (s.seeded = true ∧ ∃ i, (i = .nextU64 ∨ i = .nextF64) ∧ x = .command (encodeWord i) []) := by
  cases hx with
  | read | lateEntropy | reset | request => exact absurd rfl hc
  | seedBytes | seedEntropy | unavailable | reject => exact .inl rfl
  | draw idle output seeded => exact .inr ⟨seeded, _, output, rfl⟩

/-- Settles O32: an output command on a seeded core draws, and every other completion carries the data 0. -/
theorem responseDataIsSelected : Obligations.ResponseDataIsSelected := by
  intro s t r h hr
  obtain rfl := delivered_eq h hr
  refine ⟨rfl, ?_⟩
  obtain ⟨-, rfl⟩ | ⟨x, rest, hin, hx⟩ := step_effect h
  · simp at hr
  have hdata := hx.completion_cases (by simp [hr])
  rw [hin]
  cases x with
  | entropy | readResponse | reset => simpa using hdata
  | command w p =>
    dsimp only
    split_ifs with hu hf
    · obtain ⟨rfl, hs⟩ := hu
      simpa using step_output_seeded (.inl rfl) hin hs h
    · obtain ⟨rfl, hs⟩ := hf
      simpa using step_output_seeded (.inr rfl) hin hs h
    · obtain hzero | ⟨hs, i, rfl | rfl, hw⟩ := hdata
      · exact hzero
      · cases hw
        exact absurd ⟨rfl, hs⟩ hu
      · cases hw
        exact absurd ⟨rfl, hs⟩ hf

end Sys2Proof.Machine
end

section
/-! The proofs of the statements of `41_seeding.md`: what the seed derivation reads of its bytes, what a seeding writes,
and the two ways a SEED_ENTROPY completes. -/

namespace Sys2Proof.Machine

/-! ### The seed derivation -/

theorem rawState_eq (b : List Byte) : rawState b = le128 (b.take 16) := by
  rw [rawState, seedUsed, List.take_take]
  rfl

theorem rawIncrement_eq (b : List Byte) : rawIncrement b = le128 ((b.drop 16).take 16) := by
  rw [rawIncrement, seedUsed, List.drop_take]
  rfl

theorem seedIncrement_eq (b : List Byte) : seedIncrement b = le128 ((b.drop 16).take 16) ||| 1 := by
  rw [seedIncrement, rawIncrement_eq]

/-- The fold and the warm-up cycle, from the bytes of the first half and the increment (`41_seeding.md` R54). -/
theorem derive_eq (b : List Byte) :
    derive b = (lcg (le128 (b.take 16) + seedIncrement b) (seedIncrement b), seedIncrement b) := by
  rw [derive, seedFold, rawState_eq]
  rfl

/-- The derivation in exact arithmetic (`41_seeding.md` R54). -/
theorem derive_state_toNat (b : List Byte) :
    (derive b).1.toNat =
      (15750249268501108917 * (((le128 (b.take 16)).toNat + (seedIncrement b).toNat) % 2 ^ 128)
        + (seedIncrement b).toNat) % 2 ^ 128 := by
  rw [derive_eq, lcgIsModular, BitVec.toNat_add]

/-- Only the consumed bytes matter (`41_seeding.md` R57). -/
theorem derive_congr {b c : List Byte} (h : b.take 32 = c.take 32) : derive b = derive c := by
  have hused : seedUsed b = seedUsed c := h
  simp only [derive, seedFold, seedIncrement, rawState, rawIncrement, hused]

/-- Flipping bit 0 of the first byte of a sequence is not seen once bit 0 of the value is set. -/
theorem le128_flip_or_one (x : Byte) (bs : List Byte) :
    le128 ((x ^^^ 1) :: bs) ||| 1 = le128 (x :: bs) ||| 1 := by
  ext i hi
  cases i with
  | zero => simp
  | succ i => simp [le128, BitVec.getElem_one]

/-- Bit 0 of seed[16] is ignored (`41_seeding.md` R54). -/
theorem derive_flip_bit {b : List Byte} {x : Byte} (hx : b[16]? = some x) :
    derive (b.set 16 (x ^^^ 1)) = derive b := by
  obtain ⟨hlt, rfl⟩ := List.getElem?_eq_some_iff.mp hx
  have hstate : (b.set 16 (b[16] ^^^ 1)).take 16 = b.take 16 := List.take_set_of_le (le_refl 16)
  have hinc : seedIncrement (b.set 16 (b[16] ^^^ 1)) = seedIncrement b := by
    rw [seedIncrement_eq, seedIncrement_eq, List.drop_eq_getElem_cons hlt,
      List.drop_eq_getElem_cons (by rwa [List.length_set]), List.getElem_set_self,
      List.drop_set_of_lt (Nat.lt_succ_self 16)]
    exact le128_flip_or_one _ _
  rw [derive_eq, derive_eq, hstate, hinc]

/-- Settles O5: the derivation by its increment and its exact STATE, what it reads, and the bit that R54 sets. -/
theorem deriveFollowsSeedSteps : Obligations.DeriveFollowsSeedSteps :=
  ⟨fun b _ => ⟨seedIncrement_eq b, derive_state_toNat b⟩, fun _ _ _ h => derive_congr h,
    fun _ _ _ hx => derive_flip_bit hx⟩

/-! ### What a seeding writes -/

/-- A seeding, as the state it leaves (`41_seeding.md` R53, R59). -/
theorem seedWith_eq (b : List Byte) (s : State) :
    seedWith b s = { s with
      state := lcg (le128 (b.take 16) + (le128 ((b.drop 16).take 16) ||| 1)) (le128 ((b.drop 16).take 16) ||| 1)
      inc := le128 ((b.drop 16).take 16) ||| 1
      seeded := true
      respStatus := 0x00, respData := 0, phase := .idle, responses := s.responses ++ [⟨0x00, 0⟩] } := by
  rw [seedWith, derive_eq, seedIncrement_eq]
  rfl

theorem seedWith_congr {b c : List Byte} (h : b.take 32 = c.take 32) (s : State) : seedWith b s = seedWith c s := by
  rw [seedWith, seedWith, derive_congr h]

/-- Settles O6: a seeding writes what it derives from the first 32 bytes, whatever state it starts from. -/
theorem seedingDependsOnFirst32BytesOnly : Obligations.SeedingDependsOnFirst32BytesOnly := by
  intro len seed s s' hlen hlong
  have hseeds (u : State) : exec (.seedBytes len seed) u = .next (seedWith seed u) := exec_seedBytes_long u hlen hlong
  constructor
  · have hfirst : (seed.take 32).length = (32 : Len).toNat := List.length_take_of_le (hlen ▸ hlong)
    have htake : seed.take 32 = (seed.take 32).take 32 := by rw [List.take_take, min_self]
    rw [hseeds, exec_seedBytes_long s hfirst (by decide), seedWith_congr htake]
  · exact ⟨_, _, _, hseeds s, hseeds s', hseeds _, rfl, rfl, rfl, rfl, rfl, rfl⟩

/-! ### SEED_BYTES -/

/-- A SEED_BYTES word with its payload is read whole (`30_encoding.md` R34). -/
theorem decode_seedBytes_whole {len : Len} {seed : List Byte} (h : seed.length = len.toNat) :
    decode (encodeWord (.seedBytes len seed)) seed = .instr (.seedBytes len seed) [] := by
  have hdecode := decodeOfEncode (.seedBytes len seed) [] (wf_seedBytes_iff.mpr h)
  rwa [List.append_nil] at hdecode

/-- Settles O3: the word, the length check, and what a seeding writes. -/
theorem seedBytesSeedsGenerator : Obligations.SeedBytesSeedsGenerator :=
  fun _ seed s hlen => ⟨decode_seedBytes_whole hlen, fun hshort => exec_seedBytes_short s hlen hshort,
    fun hlong => (exec_seedBytes_long s hlen hlong).trans (congrArg _ (seedWith_eq seed s))⟩

/-- An idle core that completes a command writes only the response. -/
theorem respond_of_idle {s : State} (idle : s.phase = .idle) (st : Status) (d : U64) :
    respond st d s = { s with respStatus := st.code, respData := d, responses := s.responses ++ [⟨st.code, d⟩] } := by
  rw [respond, ← idle]

/-- Settles O4: the command port of an idle core executes the SEED_BYTES it decodes. -/
theorem seedLengthBoundary : Obligations.SeedLengthBoundary := by
  intro len seed s rest hlen idle hin
  have hstep : step s = exec (.seedBytes len seed) { s with inputs := rest } :=
    (step_of_cons hin).trans (acceptCommand_instr idle (decode_seedBytes_whole hlen))
  rw [hstep]
  constructor
  · intro hshort
    have hresponse := respond_of_idle (s := { s with inputs := rest }) idle .invalidSeedLength 0
    exact (exec_seedBytes_short _ hlen hshort).trans (congrArg _ hresponse)
  · exact fun hlong => ⟨_, exec_seedBytes_long _ hlen hlong, rfl, rfl, rfl, rfl, rfl⟩

/-- Settles O7: the seeding leaves the STATE of the first cycle and delivers none of its output; the draw after it makes
the second cycle. -/
theorem firstDrawIsSecondGeneratedValue : Obligations.FirstDrawIsSecondGeneratedValue := by
  intro len seed s hlen hlong inc first second
  have hdraw := exec_output_seeded (.inl rfl) (seedWith_seeded seed s)
  have hinc : (seedWith seed s).inc = inc := seedIncrement_eq seed
  have hstate : (seedWith seed s).state = first.1 := congrArg State.state (seedWith_eq seed s)
  rw [hinc, hstate, select_nextU64] at hdraw
  exact ⟨_, _, exec_seedBytes_long s hlen hlong, hstate, rfl, hdraw, rfl, List.append_assoc _ _ _⟩

/-! ### SEED_ENTROPY -/

/-- Settles O8: the issue writes PHASE alone, a step without an input stands still, and reset answers nothing. -/
theorem seedEntropyIssuesRequest : Obligations.SeedEntropyIssuesRequest :=
  ⟨fun _ => rfl, exec_seedEntropy, fun _ => step_of_nil,
    fun _ _ _ hin => ⟨_, step_of_cons hin, rfl, rfl, rfl⟩⟩

/-- Settles O9: both commands complete by the same seeding, and the second half of 32 bytes is 16 bytes long. -/
theorem entropyBytesCompleteSeeding : Obligations.EntropyBytesCompleteSeeding := by
  intro s b rest waiting hin
  have hstep : step s = .next (seedWith b.toList { s with inputs := rest }) :=
    (step_of_cons hin).trans (acceptEntropy_ok b waiting)
  have hhalf : (b.toList.drop 16).take 16 = b.toList.drop 16 := List.take_of_length_le (by simp)
  constructor
  · rw [hstep, seedWith_eq, hhalf]
  · rw [hstep, exec_seedBytes_long _ b.length_toList (by decide)]

/-- Settles O10: the answer unavailable is the error completion, which writes only the response and PHASE. -/
theorem entropyUnavailableKeepsGenerator : Obligations.EntropyUnavailableKeepsGenerator :=
  fun _ _ waiting hin => (step_of_cons hin).trans (acceptEntropy_unavailable waiting)

end Sys2Proof.Machine
end

section
/-! The proofs of the statements of `42_output.md`: a run that respects the host protocol goes on, the sequence law of
the generator, and the two output commands on a seeded and on an unseeded core. -/

namespace Sys2Proof.Machine

/-! ### Inputs that respect the host protocol -/

/-- A well-formed command is executed: only a payload of the wrong length stops one (`30_encoding.md` R34). -/
theorem exec_next_of_wf {i : Instr} (hwf : i.wf = true) (s : State) : ∃ t, exec i s = .next t := by
  obtain hnext | hfault := exec_next_or_violation i s
  · exact hnext
  · obtain ⟨len, p, rfl, hne, -⟩ := exec_fault_cases hfault
    exact absurd (wf_seedBytes_iff.mp hwf) hne

theorem payloadBytes_of_wf {i : Instr} (hwf : i.wf = true) :
    payloadBytes (encodeWord i) = (encodePayload i).length := by
  cases i with
  | seedBytes len p => exact Laws.PayloadCount.seedBytes len p hwf
  | seedEntropy | nextU64 | nextF64 | getstate | setstate => rfl

/-- An illegal word takes nothing from the payload channel (`30_encoding.md` R40). -/
theorem rest_of_decode_illegal {w : CmdWord} {channel rest : List Byte} {why : IllegalReason}
    (h : decode w channel = .illegal why rest) : rest = channel ∧ payloadBytes w = 0 := by
  have hop : opcField w ≠ OPC_SEED_BYTES := fun hop => opc_of_decode_illegal h (opcField_eq_iff.mp hop)
  refine ⟨?_, if_neg hop⟩
  unfold decode at h
  split_ifs at h <;> cases h <;> rfl

/-- A command word that comes with exactly its payload is answered by an idle core (`60_exceptions.md` R76). -/
theorem acceptCommand_next_of_payload {w : CmdWord} {p : List Byte} {s : State} (idle : s.phase = .idle)
    (hp : p.length = payloadBytes w) : ∃ t, acceptCommand w p s = .next t := by
  cases hd : decode w p with
  | instr i rest =>
    obtain ⟨rfl, hsplit, hwhole⟩ := encodeOfDecode w p rest i hd
    have hwf : i.wf = true := hwhole.mpr hp.ge
    have hrest : rest = [] := by
      rw [← hsplit, List.length_append, payloadBytes_of_wf hwf] at hp
      exact List.eq_nil_of_length_eq_zero (by omega)
    rw [acceptCommand_instr idle (hrest ▸ hd)]
    exact exec_next_of_wf hwf s
  | illegal why rest =>
    obtain ⟨hrest, hzero⟩ := rest_of_decode_illegal hd
    have hnil : rest = [] := hrest.trans (List.eq_nil_of_length_eq_zero (hp.trans hzero))
    exact ⟨_, acceptCommand_illegal idle (hnil ▸ hd)⟩

/-- An input that respects the host protocol leads to a next state (`60_exceptions.md` R76). -/
theorem takeInput_next_of_respects {x : Input} {rest : List Input} {s : State}
    (h : hostRespects s.phase (x :: rest) = true) : ∃ t, takeInput x s = .next t := by
  cases x with
  | command w p =>
    have hport : s.phase = .idle ∧ p.length = payloadBytes w := by
      simpa using (Bool.and_eq_true_iff.mp h).1
    exact acceptCommand_next_of_payload hport.1 hport.2
  | entropy a => exact acceptEntropy_next a s
  | readResponse => exact ⟨s, rfl⟩
  | reset => exact ⟨resetCore s, rfl⟩

/-! ### The sequence law -/

/-- An input that neither seeds the generator nor resets the core (`42_output.md` R64). -/
def Input.keepsGenerator : Input → Prop
  | .command w p => w ≠ encodeWord .seedEntropy ∧ (w.toNat % 256 = 0x01 → p.length < 32)
  | .entropy _ => True
  | .readResponse => True
  | .reset => False

/-- The word of an output command, if the input is one. -/
def Input.drawnWord : Input → Option CmdWord
  | .command w _ => if w = encodeWord .nextU64 ∨ w = encodeWord .nextF64 then some w else none
  | .entropy _ => none
  | .readResponse => none
  | .reset => none

/-- The responses to the output commands `ws` of a generator, the first computed from the first updated state
(`42_output.md` R64). -/
def drawAnswers (s inc : U128) (ws : List CmdWord) : List Response :=
  (ws.zipIdx 1).map fun wk =>
    let u := dxsm (streamState s inc wk.2)
    ⟨0x00, if wk.1 = encodeWord .nextU64 then u else f64bits u⟩

/-- The sequence law from s to t, with the output commands `ws` on the way (`42_output.md` R64). -/
structure Drawn (ws : List CmdWord) (s t : State) : Prop where
  state : t.state = streamState s.state s.inc ws.length
  inc : t.inc = s.inc
  seeded : t.seeded = true
  idle : t.phase = .idle
  responses : ∃ delivered, t.responses = s.responses ++ delivered ∧
    delivered.filter (fun r => r.status == 0x00) = drawAnswers s.state s.inc ws

theorem streamState_add (s inc : U128) (n k : Nat) :
    streamState s inc (n + k) = streamState (streamState s inc n) inc k := by
  induction k with
  | zero => rfl
  | succ k ih => exact congrArg (lcg · inc) ih

theorem drawAnswers_append (s inc : U128) (ws vs : List CmdWord) :
    drawAnswers s inc (ws ++ vs) = drawAnswers s inc ws ++ drawAnswers (streamState s inc ws.length) inc vs := by
  rw [drawAnswers, List.zipIdx_append, List.map_append, Nat.add_comm, ← List.map_snd_add_zipIdx_eq_zipIdx,
    List.map_map]
  simp [drawAnswers, ← streamState_add, Function.comp_def, Nat.add_comm]

/-- Stretches of draws follow one another. -/
theorem Drawn.trans {ws vs : List CmdWord} {s u t : State} (h : Drawn ws s u) (h' : Drawn vs u t) :
    Drawn (ws ++ vs) s t := by
  obtain ⟨d, hd, hda⟩ := h.responses
  obtain ⟨d', hd', hda'⟩ := h'.responses
  refine ⟨?_, h'.inc.trans h.inc, h'.seeded, h'.idle, d ++ d', ?_, ?_⟩
  · rw [h'.state, h.state, h.inc, ← streamState_add, List.length_append]
  · rw [hd', hd, List.append_assoc]
  · rw [List.filter_append, hda, hda', h.state, h.inc, drawAnswers_append]

/-- An input that leaves the core as it is draws nothing. -/
theorem Drawn.refl {s : State} (seeded : s.seeded = true) (idle : s.phase = .idle) : Drawn [] s s :=
  ⟨rfl, rfl, seeded, idle, [], (List.append_nil _).symm, rfl⟩

/-- An error draws nothing (`60_exceptions.md` R70). -/
theorem drawn_raiseError {s : State} {e : Status} (seeded : s.seeded = true) (error : e ≠ .ok) :
    Drawn [] s (raiseError e s) := by
  have hcode : e.code ≠ 0x00 := fun h => error ((code_eq_ok_iff e).mp h)
  exact ⟨rfl, rfl, seeded, rfl, _, rfl, by simpa [drawAnswers] using hcode⟩

/-- An output command on a seeded core draws its word (`42_output.md` R61, R62). -/
theorem drawn_output {i : Instr} {s : State} (hi : i = .nextU64 ∨ i = .nextF64) (seeded : s.seeded = true) :
    Drawn [encodeWord i] s
      (respond .ok (select i .ok (dxsm (lcg s.state s.inc))) (writeState (lcg s.state s.inc) s)) := by
  refine ⟨rfl, rfl, seeded, rfl, _, rfl, ?_⟩
  rcases hi with rfl | rfl <;> rfl

/-- A seeded core answers no output command with an error (`42_output.md` R61, R62). -/
theorem drawnWord_of_reject {w : CmdWord} {p : List Byte} {s : State} {e : Status} (seeded : s.seeded = true)
    (error : e ≠ .ok) (h : takeInput (.command w p) s = .next (raiseError e s)) :
    (Input.command w p).drawnWord = none := by
  refine if_neg fun hw => error ?_
  obtain ⟨i, hi, rfl⟩ : ∃ i, (i = .nextU64 ∨ i = .nextF64) ∧ w = encodeWord i := by simpa using hw
  have hstep : step { s with inputs := [.command (encodeWord i) p] } = .next { raiseError e s with inputs := [] } :=
    (step_of_cons rfl).trans (takeInput_withInputs h [])
  have hstatus : e.code = Status.ok.code :=
    (step_output_seeded (s := { s with inputs := [.command (encodeWord i) p] }) hi rfl seeded hstep).1
  exact (code_eq_ok_iff e).mp hstatus

/-- Each input that keeps the generator draws its word, if it is an output command, and nothing otherwise. -/
theorem drawn_takeInput {x : Input} {s t : State} (seeded : s.seeded = true) (idle : s.phase = .idle)
    (hx : x.keepsGenerator) (h : takeInput x s = .next t) : Drawn x.drawnWord.toList s t := by
  cases takeInput_effect h with
  | read | lateEntropy => exact .refl seeded idle
  | reset => exact hx.elim
  | request => exact absurd rfl hx.1
  | seedBytes _ opc long => exact absurd long (hx.2 opc).not_ge
  | seedEntropy waiting | unavailable waiting => exact nomatch idle.symm.trans waiting
  | draw _ hi =>
    have hword : (Input.command (encodeWord _) []).drawnWord = some _ :=
      if_pos (hi.imp (congrArg encodeWord) (congrArg encodeWord))
    rw [hword]
    exact drawn_output hi seeded
  | reject _ error =>
    rw [drawnWord_of_reject seeded error h]
    exact drawn_raiseError seeded error

theorem phaseAfter_of_keepsGenerator {x : Input} (hx : x.keepsGenerator) : phaseAfter .idle x = .idle := by
  cases x with
  | command w p => exact if_neg hx.1
  | entropy | readResponse | reset => rfl

/-- A run over inputs that keep the generator draws the output commands among them (`42_output.md` R64). -/
theorem drawn_runInputs {xs : List Input} {s : State} (seeded : s.seeded = true) (idle : s.phase = .idle)
    (hhost : hostRespects .idle xs = true) (hxs : ∀ x ∈ xs, x.keepsGenerator) :
    ∃ t, runInputs { s with inputs := xs } = .next t ∧ Drawn (xs.filterMap Input.drawnWord) s t := by
  induction xs generalizing s with
  | nil => exact ⟨_, rfl, { Drawn.refl seeded idle with }⟩
  | cons x xs ih =>
    obtain ⟨hx, hrest⟩ := List.forall_mem_cons.mp hxs
    have htail : hostRespects .idle xs = true :=
      phaseAfter_of_keepsGenerator hx ▸ (Bool.and_eq_true_iff.mp hhost).2
    obtain ⟨u, hu⟩ := takeInput_next_of_respects (idle ▸ hhost)
    have hfirst : Drawn x.drawnWord.toList s u := drawn_takeInput seeded idle hx hu
    obtain ⟨t, ht, hdrawn⟩ := ih hfirst.seeded hfirst.idle htail hrest
    refine ⟨t, (runInputs_cons_of_next hu xs).trans ht, ?_⟩
    rw [List.filterMap_eq_flatMap_toList, List.flatMap_cons, ← List.filterMap_eq_flatMap_toList]
    exact hfirst.trans hdrawn

/-- Settles O49: the inputs go through one by one (`takeInput_next_of_respects`), each draws its word or nothing
(`drawn_takeInput`), and the stretches compose (`Drawn.trans`). -/
theorem sequenceLaw : Obligations.SequenceLaw := by
  intro s seeded idle hhost hxs draws
  have hkeep : ∀ x ∈ s.inputs, x.keepsGenerator := fun x hx => by
    have hallowed := hxs x hx
    cases x <;> exact hallowed
  have hdraws : s.inputs.filterMap Input.drawnWord = draws := by
    refine List.filterMap_congr fun x _ => ?_
    cases x <;> rfl
  obtain ⟨t, ht, hdrawn⟩ := drawn_runInputs seeded idle hhost hkeep
  rw [hdraws] at hdrawn
  obtain ⟨delivered, hnew, hanswers⟩ := hdrawn.responses
  exact ⟨t, delivered, ht, hdrawn.state, hdrawn.inc, hdrawn.seeded, hnew, hanswers⟩

/-! ### Every 64-bit value can be drawn -/

/-- An odd factor is a unit modulo 2^w. -/
theorem mul_surjective_of_odd {w : Nat} {a : BitVec w} (odd : a.toNat % 2 = 1) : Function.Surjective (a * ·) := by
  refine Finite.surjective_of_injective fun x y hxy => ?_
  have hcop : Nat.Coprime (2 ^ w) a.toNat := (Nat.coprime_two_left.mpr (Nat.odd_iff.mpr odd)).pow_left w
  have hmod : a.toNat * x.toNat ≡ a.toNat * y.toNat [MOD 2 ^ w] :=
    (BitVec.toNat_mul a x).symm.trans ((congrArg BitVec.toNat hxy).trans (BitVec.toNat_mul a y))
  exact BitVec.eq_of_toNat_eq ((Nat.ModEq.cancel_left_of_coprime hcop hmod).eq_of_lt_of_lt x.isLt y.isLt)

/-- An xorshift is linear and gives 0 of 0 alone. -/
theorem xorshift_surjective {n : Nat} (hn : 0 < n) : Function.Surjective (xorshift n) := by
  refine Finite.surjective_of_injective fun x y hxy => ?_
  have hlinear : xorshift n (x ^^^ y) = xorshift n x ^^^ xorshift n y := by
    simp only [xorshift, BitVec.ushiftRight_xor_distrib]
    ac_rfl
  have hzero : xorshift n (x ^^^ y) = 0 := hlinear.trans (hxy ▸ BitVec.xor_self)
  exact BitVec.xor_eq_zero_iff.mp ((xorshift_eq_zero_iff hn).mp hzero)

/-- Each stage of the permutation can be undone, for a state whose low half is 1 (`40_datapath.md` R47). -/
theorem dxsm_surjective : Function.Surjective dxsm := by
  intro v
  obtain ⟨h2, hh2⟩ := xorshift_surjective (n := XS2) (by decide) v
  obtain ⟨h1, hh1⟩ := mul_surjective_of_odd (a := MUL) (by decide) h2
  obtain ⟨h0, hh0⟩ := xorshift_surjective (n := XS1) (by decide) h1
  refine ⟨h0 ++ 1#64, ?_⟩
  have hhigh : high (h0 ++ 1#64) = h0 := BitVec.extractLsb'_append_eq_left
  have hlow : low (h0 ++ 1#64) = 1 := by rw [low, BitVec.extractLsb'_append_eq_right]; decide
  rw [dxsm, hhigh, hlow, hh0, show MUL * h1 = h2 from hh1, hh2]
  exact BitVec.mul_one v

theorem lcg_surjective (inc : U128) : Function.Surjective (lcg · inc) := by
  intro v
  obtain ⟨x, hx⟩ := mul_surjective_of_odd (a := MUL.setWidth 128) (by decide) (v - inc)
  refine ⟨x, ?_⟩
  change MUL.setWidth 128 * x + inc = v
  rw [show MUL.setWidth 128 * x = v - inc from hx, BitVec.sub_add_cancel]

/-! ### The output commands -/

/-- Settles O14: the SEEDED check comes first, and the error writes only the response. -/
theorem unseededOutputAnswersNotSeeded : Obligations.UnseededOutputAnswersNotSeeded :=
  fun _ _ hi hs => exec_output_unseeded hi hs

/-- Settles O12: the draw and its corners; 0 is drawn of an upper half of 0 alone, and the transition and the
permutation reach every value. -/
theorem nextU64DrawsFromUpdatedState : Obligations.NextU64DrawsFromUpdatedState := by
  have hdraw {s : State} (hs : s.seeded = true) := exec_output_seeded (i := .nextU64) (.inl rfl) hs
  simp only [select_nextU64] at hdraw
  refine ⟨decode_output (.inl rfl), fun s => hdraw, fun s => exec_output_unseeded (.inl rfl), fun inc => ?_,
    fun s t hs ht => ?_, fun s v hs => ?_, fun s hs => ?_⟩
  · simp [lcg]
  · obtain rfl := Host.Outcome.next.inj (ht.symm.trans (hdraw hs))
    refine (dxsmFollowsStages (lcg s.state s.inc)).2.trans ?_
    exact Nat.div_eq_zero_iff_lt (by decide)
  · obtain ⟨y, rfl⟩ := dxsm_surjective v
    obtain ⟨x, rfl⟩ := lcg_surjective s.inc y
    exact ⟨x, _, hdraw (s := { s with state := x }) hs, rfl, rfl⟩
  · exact ⟨_, _, hdraw hs, hdraw (s := respond _ _ _) hs, rfl⟩

/-- Only a mantissa of 0 gives 0.0 (`42_output.md` R62). -/
theorem f64bits_eq_zero_iff (u : U64) : f64bits u = 0 ↔ u.toNat < 2 ^ 11 := by
  have hzero : f64bits 0 = 0 := f64bits_of_mantissa_zero (by decide)
  have hupper := floatSeesExactlyTheUpper53Bits u 0
  rw [hzero] at hupper
  exact hupper.trans (Nat.div_eq_zero_iff_lt (by decide))

/-- Every encoding lies below that of 1.0: no sign, and an exponent below 1023 (`40_datapath.md` R51). -/
theorem f64bits_lt_one (u : U64) : (f64bits u).toNat < 0x3FF0000000000000 := by
  obtain ⟨hsign, hzero | ⟨-, hexp⟩, -⟩ := floatRange u
  · rw [hzero]
    decide
  · rw [signBit_eq, decide_eq_false_iff_not] at hsign
    rw [biasedExponent_eq] at hexp
    omega

/-- Settles O13: the draw, and the range of the converter. -/
theorem nextF64DrawsFromUpdatedState : Obligations.NextF64DrawsFromUpdatedState := by
  have hdraw {s : State} (hs : s.seeded = true) := exec_output_seeded (i := .nextF64) (.inr rfl) hs
  simp only [select_nextF64] at hdraw
  refine ⟨decode_output (.inr rfl), fun s => hdraw, fun s => exec_output_unseeded (.inr rfl), fun s t hs ht => ?_⟩
  obtain rfl := Host.Outcome.next.inj (ht.symm.trans (hdraw hs))
  exact ⟨f64bits_eq_zero_iff _, f64bits_lt_one _⟩

end Sys2Proof.Machine
end

section
/-! The proofs of the statements of `43_control.md`: the words no command has, and the two state-access commands, which
read and write none of the generator. -/

namespace Sys2Proof.Machine

/-! ### Illegal words -/

/-- The word of a command has an assigned OPC, and CMD[31:8] is 0 unless the command is SEED_BYTES
(`30_encoding.md` R36). -/
theorem encodeWord_fields (i : Instr) :
    (encodeWord i).toNat % 256 ∈ [0x01, 0x02, 0x10, 0x11, 0x20, 0x21] ∧
      ((encodeWord i).toNat % 256 = 0x01 ∨ (encodeWord i).toNat / 256 = 0) := by
  cases i with
  | seedBytes len p =>
    have hopc : (1 + 256 * len.toNat) % 256 = 0x01 := by omega
    rw [seedBytes_word_toNat, hopc]
    exact ⟨List.mem_cons_self, .inl rfl⟩
  | seedEntropy | nextU64 | nextF64 | getstate | setstate => decide

/-- The decoder finds a word illegal where its OPC is reserved or its Z is not 0 (`30_encoding.md` R37, R38). -/
theorem decode_illegal_of_fields {w : CmdWord}
    (h : w.toNat % 256 ∉ [0x01, 0x02, 0x10, 0x11, 0x20, 0x21] ∨ (w.toNat % 256 ≠ 0x01 ∧ w.toNat / 256 ≠ 0))
    (channel : List Byte) : ∃ why, decode w channel = .illegal why channel := by
  cases hd : decode w channel with
  | instr i rest =>
    obtain ⟨rfl, -⟩ := encode_of_decode_instr hd
    obtain ⟨hassigned, hz⟩ := encodeWord_fields i
    obtain hreserved | ⟨hopc, hnonzero⟩ := h
    · exact absurd hassigned hreserved
    · exact absurd hz (not_or.mpr ⟨hopc, hnonzero⟩)
  | illegal why rest =>
    obtain ⟨rfl, -⟩ := rest_of_decode_illegal hd
    exact ⟨why, rfl⟩

/-- Settles O18: no command is encoded as such a word, so the command port answers it with ILLEGAL_COMMAND; a word with
the OPC of SEED_BYTES takes a payload of its LEN whole. -/
theorem illegalWordsAnswerIllegalCommand : Obligations.IllegalWordsAnswerIllegalCommand := by
  constructor
  · intro s w rest hw
    obtain ⟨why, hd⟩ := decode_illegal_of_fields hw []
    refine ⟨(rest_of_decode_illegal hd).2, fun idle hin => ?_⟩
    have hport := acceptCommand_illegal (s := { s with inputs := rest }) idle hd
    have hresponse := respond_of_idle (s := { s with inputs := rest }) idle .illegalCommand 0
    exact (step_of_cons hin).trans (hport.trans (congrArg _ hresponse))
  · intro w hw
    refine ⟨lenField w, lenField_toNat w, fun p hp => ?_⟩
    rw [decode_of_opc_seedBytes hw, List.take_of_length_le hp.le, List.drop_of_length_le hp.le]

/-! ### GETSTATE and SETSTATE -/

/-- Settles O16: the error completion writes the response and PHASE, and PHASE is IDLE already on an idle core. -/
theorem getstateAnswersUnsupported : Obligations.GetstateAnswersUnsupported :=
  ⟨fun _ => rfl, exec_getstate,
    fun s idle => (exec_getstate s).trans (congrArg _ (respond_of_idle idle .unsupported 0))⟩

/-- A draw reads STATE, INC and SEEDED alone, so an error completed before it leaves its trace only among the responses
delivered (`42_output.md` R61, R63). -/
theorem draw_raiseError {cmd : Instr} {s u : State} (e : Status) (h : draw cmd s = .next u) :
    draw cmd (raiseError e s) =
      .next { u with responses := s.responses ++ [⟨e.code, 0⟩] ++ [⟨u.respStatus, u.respData⟩] } := by
  rw [draw_eq] at h ⊢
  rw [raiseError_seeded]
  obtain rfl := Host.Outcome.next.inj h
  cases s.seeded with
  | false => rfl
  | true => rfl

/-- Settles O17: SETSTATE is an error completion, which a draw after it does not see. -/
theorem setstateAnswersUnsupported : Obligations.SetstateAnswersUnsupported := by
  refine ⟨fun _ => rfl, exec_setstate, fun s t u v ht hu hv => ?_⟩
  obtain rfl := Host.Outcome.next.inj ((exec_setstate s).symm.trans ht)
  obtain rfl := Host.Outcome.next.inj ((draw_raiseError .unsupported hu).symm.trans hv)
  exact ⟨rfl, rfl, rfl, rfl, rfl⟩

end Sys2Proof.Machine
end

section
/-! The proofs of the statements of `60_exceptions.md`: what the ports refuse and ignore, the host protocol input by input
and over a run, and the status each command answers with. -/

namespace Sys2Proof.Machine

/-! ### What the ports refuse and ignore -/

/-- A command that is not well formed has the wrong number of payload bytes (`30_encoding.md` R34). -/
theorem exec_fault_of_not_wf {i : Instr} (hwf : ¬ i.wf = true) (s : State) :
    exec i s = .fault (.protocolViolation .payloadLength) := by
  cases i with
  | seedBytes len p => exact exec_seedBytes_mismatch s fun hp => hwf (wf_seedBytes_iff.mpr hp)
  | seedEntropy | nextU64 | nextF64 | getstate | setstate => exact absurd rfl hwf

/-- Bytes that a word does not take, or that it misses, are a breach of the host protocol (`60_exceptions.md` R76 (b),
(c)). -/
theorem acceptCommand_wrong_payload {w : CmdWord} {p : List Byte} {s : State} (idle : s.phase = .idle)
    (hp : p.length ≠ payloadBytes w) : acceptCommand w p s = .fault (.protocolViolation .payloadLength) := by
  cases hd : decode w p with
  | instr i rest =>
    by_cases hrest : rest = []
    · subst hrest
      obtain ⟨rfl, hsplit⟩ := encode_of_decode_instr hd
      rw [List.append_nil] at hsplit
      have hwf : ¬ i.wf = true := fun hwf => hp (hsplit ▸ (payloadBytes_of_wf hwf).symm)
      rw [acceptCommand_instr idle hd]
      exact exec_fault_of_not_wf hwf s
    · simp [acceptCommand, idle, hd, hrest]
  | illegal why rest =>
    obtain ⟨rfl, hzero⟩ := rest_of_decode_illegal hd
    have hrest : rest ≠ [] := fun hnil => hp (hnil ▸ hzero.symm)
    simp [acceptCommand, idle, hd, hrest]

/-- The faults of the command port: overlap while a command is outstanding, payload length on an idle core
(`60_exceptions.md` R76). -/
theorem acceptCommand_fault_iff {w : CmdWord} {p : List Byte} {s : State} {f : Fault} :
    acceptCommand w p s = .fault f ↔
      (s.phase = .waitEntropy ∧ f = .protocolViolation .overlap) ∨
      (s.phase = .idle ∧ p.length ≠ payloadBytes w ∧ f = .protocolViolation .payloadLength) := by
  cases hph : s.phase with
  | waitEntropy => simp [acceptCommand_overlap w p hph, eq_comm]
  | idle =>
    by_cases hp : p.length = payloadBytes w
    · obtain ⟨t, ht⟩ := acceptCommand_next_of_payload hph hp
      simp [ht, hp]
    · simp [acceptCommand_wrong_payload hph hp, hp, eq_comm]

/-- Settles O38: of the inputs only a command can fault, and it does so as the command port says
(`acceptCommand_fault_iff`). -/
theorem faultsAreProtocolViolations : Obligations.FaultsAreProtocolViolations := by
  intro s f
  constructor
  · intro h
    cases hin : s.inputs with
    | nil => exact nomatch (step_of_nil hin).symm.trans h
    | cons x rest =>
      rw [step_of_cons hin] at h
      cases x with
      | command w p => exact ⟨w, p, rest, rfl, acceptCommand_fault_iff (s := { s with inputs := rest }).mp h⟩
      | entropy a =>
        obtain ⟨t, ht⟩ := acceptEntropy_next a { s with inputs := rest }
        exact nomatch ht.symm.trans h
      | readResponse | reset => cases h
  · rintro ⟨w, p, rest, hin, hbreach⟩
    exact (step_of_cons hin).trans (acceptCommand_fault_iff (s := { s with inputs := rest }).mpr hbreach)

/-- Settles O11: the entropy port of an idle core writes nothing. -/
theorem unrequestedEntropyAnswerIsIgnored : Obligations.UnrequestedEntropyAnswerIsIgnored :=
  fun _ a _ idle hin => (step_of_cons hin).trans (acceptEntropy_idle a idle)

/-! ### The host protocol, input by input -/

/-- The host protocol is checked input by input, each from the phase the inputs before it leave. -/
theorem hostRespects_cons (ph : Phase) (x : Input) (xs : List Input) :
    hostRespects ph (x :: xs) = (hostRespects ph [x] && hostRespects (phaseAfter ph x) xs) := by
  cases x <;> simp [hostRespects]

/-- An input that leads to a next state respects the host protocol. -/
theorem hostRespects_of_takeInput_next {x : Input} {s t : State} (h : takeInput x s = .next t) :
    hostRespects s.phase [x] = true := by
  cases x with
  | command w p =>
    obtain ⟨idle, -⟩ := acceptCommand_next_cases h
    have hp : p.length = payloadBytes w := by
      by_contra hp
      exact nomatch (acceptCommand_wrong_payload idle hp).symm.trans h
    simp [hostRespects, idle, hp]
  | entropy | readResponse | reset => rfl

/-- The word of SEED_ENTROPY is read as it, whatever bytes come with it (`30_encoding.md` R39). -/
theorem decode_seedEntropy (p : List Byte) : decode (encodeWord .seedEntropy) p = .instr .seedEntropy p := rfl

/-- A SEED_ENTROPY that is accepted is issued (`41_seeding.md` R58). -/
theorem acceptCommand_seedEntropy_next {p : List Byte} {s t : State}
    (h : acceptCommand (encodeWord .seedEntropy) p s = .next t) : t = requestEntropy s := by
  obtain ⟨-, ⟨i, hd, he⟩ | ⟨why, hd, -⟩⟩ := acceptCommand_next_cases h
  · obtain ⟨rfl, -⟩ := Decoded.instr.inj ((decode_seedEntropy p).symm.trans hd)
    exact (Host.Outcome.next.inj he).symm
  · cases (decode_seedEntropy p).symm.trans hd

/-- The next state of an input is in the phase the host protocol reckons with. -/
theorem phase_of_takeInput_next {x : Input} {s t : State} (h : takeInput x s = .next t) :
    t.phase = phaseAfter s.phase x := by
  cases x with
  | command w p =>
    by_cases hw : w = encodeWord .seedEntropy
    · subst hw
      rw [acceptCommand_seedEntropy_next h]
      rfl
    · cases takeInput_effect h with
      | request => exact absurd rfl hw
      | seedBytes | draw | reject => exact (if_neg hw).symm
  | entropy a =>
    cases takeInput_effect h with
    | lateEntropy idle => exact idle
    | seedEntropy | unavailable => rfl
  | readResponse | reset =>
    cases h
    rfl

/-! ### The host protocol over a run -/

/-- A run over all inputs goes through or ends in a violation, and the host protocol tells which (`60_exceptions.md`
R76). -/
theorem runInputs_next_or_violation (xs : List Input) (s : State) :
    (hostRespects s.phase xs = true ∧
      ∃ t, runInputs { s with inputs := xs } = .next t ∧ t.inputs = [] ∧ t.phase = phaseAfterAll s.phase xs) ∨
    (hostRespects s.phase xs = false ∧ ∃ k, runInputs { s with inputs := xs } = .fault (.protocolViolation k)) := by
  induction xs generalizing s with
  | nil => exact .inl ⟨rfl, _, rfl, rfl, rfl⟩
  | cons x xs ih =>
    obtain ⟨u, hu⟩ | ⟨k, hk⟩ := takeInput_next_or_violation x { s with inputs := xs }
    · have hphase : u.phase = phaseAfter s.phase x := phase_of_takeInput_next (s := { s with inputs := xs }) hu
      have hfirst : hostRespects s.phase [x] = true :=
        hostRespects_of_takeInput_next (s := { s with inputs := xs }) hu
      rw [runInputs_cons_of_next hu xs, hostRespects_cons, hfirst, Bool.true_and, ← hphase]
      have hrest := ih u
      rwa [hphase] at hrest ⊢
    · refine .inr ⟨?_, k, runInputs_cons_of_fault hk⟩
      rw [Bool.eq_false_iff]
      intro hrespects
      obtain ⟨u, hu⟩ := takeInput_next_of_respects (s := { s with inputs := xs }) hrespects
      exact nomatch hu.symm.trans hk

/-- Settles O47: the two ends of a run (`runInputs_next_or_violation`); with no input left it has ended where PHASE is
IDLE. -/
theorem respectfulHostRunsThrough : Obligations.RespectfulHostRunsThrough := by
  intro s
  obtain ⟨hrespects, t, ht, hnil, hphase⟩ | ⟨hbreach, hfault⟩ := runInputs_next_or_violation s.inputs s
  · refine ⟨fun _ => ⟨t, ht, hnil, hphase, ?_⟩, fun hbreach => nomatch hrespects.symm.trans hbreach⟩
    rw [← hphase]
    exact ⟨And.right, ended_of_nil hnil⟩
  · exact ⟨fun hrespects => (nomatch hrespects.symm.trans hbreach), fun _ => hfault⟩

/-! ### The status of a response -/

/-- A response that is not OK comes of the one error completion (`60_exceptions.md` R70). -/
theorem InputEffect.eq_raiseError {x : Input} {s t : State} (hx : InputEffect s x t)
    (hc : t.responses ≠ s.responses) (hst : t.respStatus ≠ 0x00) : ∃ e, t = raiseError e s := by
  cases hx with
  | read | lateEntropy | reset | request => exact absurd rfl hc
  | seedBytes | seedEntropy | draw => exact absurd rfl hst
  | unavailable | reject => exact ⟨_, rfl⟩

/-- Settles O35: an error is answered by `raiseError`, which writes the response and PHASE alone. -/
theorem errorsArePrecise : Obligations.ErrorsArePrecise := by
  intro s t r h hr hst
  obtain rfl := delivered_eq h hr
  obtain ⟨-, rfl⟩ | ⟨x, rest, hin, hx⟩ := step_effect h
  · simp at hr
  · obtain ⟨e, rfl⟩ := hx.eq_raiseError (by simp [hr]) hst
    rw [hin]
    exact ⟨rfl, rfl⟩

/-- Settles O36: a command with its right payload is accepted, and the cases of its next state are the checks of R71. -/
theorem statusFollowsOrderOfChecks : Obligations.StatusFollowsOrderOfChecks := by
  refine ⟨fun s w p rest idle hin hp => ?_, fun s a rest waiting hin => ?_⟩
  · obtain ⟨t, ht⟩ := acceptCommand_next_of_payload (s := { s with inputs := rest }) idle hp
    have hstep : step s = .next t := (step_of_cons hin).trans ht
    constructor
    · intro hw
      refine ⟨t, hstep, ?_⟩
      obtain ⟨-, ⟨i, hd, he⟩ | ⟨why, hd, rfl⟩⟩ := acceptCommand_next_cases ht <;> rw [hd]
      · rcases exec_next_cases he with ⟨len, b, rfl, -, hshort, rfl⟩ | ⟨len, b, rfl, -, hlong, rfl⟩ | ⟨rfl, -⟩ |
          ⟨rfl | rfl, hs, rfl⟩ | ⟨rfl | rfl, hs, rfl⟩ | ⟨rfl | rfl, rfl⟩
        · exact ⟨rfl, rfl, (if_pos hshort).symm⟩
        · exact ⟨rfl, rfl, (if_neg hlong.not_gt).symm⟩
        · exact absurd (encode_of_decode_instr hd).1.symm hw
        · exact ⟨rfl, rfl, (if_pos hs).symm⟩
        · exact ⟨rfl, rfl, (if_pos hs).symm⟩
        · exact ⟨rfl, rfl, (if_neg (Bool.eq_false_iff.mp hs)).symm⟩
        · exact ⟨rfl, rfl, (if_neg (Bool.eq_false_iff.mp hs)).symm⟩
        · exact ⟨rfl, rfl, rfl⟩
        · exact ⟨rfl, rfl, rfl⟩
      · exact ⟨rfl, rfl, rfl⟩
    · rintro rfl
      exact hstep.trans (congrArg _ (acceptCommand_seedEntropy_next ht))
  · cases a with
    | ok b => exact ⟨_, (step_of_cons hin).trans (acceptEntropy_ok b waiting), rfl, by simp [Status.code]⟩
    | unavailable =>
      exact ⟨_, (step_of_cons hin).trans (acceptEntropy_unavailable waiting), rfl, by simp [Status.code]⟩

/-- Settles O37: every command but SEED_ENTROPY completes by `respond`, which writes both response registers anew. -/
theorem statusIsNotSticky : Obligations.StatusIsNotSticky := by
  intro i s st d hi
  cases i with
  | seedEntropy => exact absurd rfl hi
  | seedBytes | nextU64 | nextF64 | getstate | setstate => rfl

end Sys2Proof.Machine
end

section
/-! The proofs of the statements of `70_reset_and_hazards.md`: the run up to its end as a part of the run over all the
inputs and what is observed of it, the reset input, and the state after reset. -/

namespace Sys2Proof.Machine

/-! ### States in which a run has ended -/

theorem any_isCommand_eq_false_iff {xs : List Input} :
    xs.any Input.isCommand = false ↔ ∀ w p, .command w p ∉ xs := by
  rw [List.any_eq_false]
  constructor
  · exact fun h w p hx => h _ hx rfl
  · intro h x hx
    cases x with
    | command w p => exact absurd hx (h w p)
    | entropy | readResponse | reset => exact Bool.false_ne_true

/-- Steps taken after the end of a run deliver nothing. -/
theorem run_of_ended (n : Nat) {s : State} (h : Ended s) : ∃ u, run n s = .next u ∧ u.responses = s.responses := by
  induction n generalizing s with
  | zero => exact ⟨s, rfl, rfl⟩
  | succ n ih =>
    obtain ⟨t, hstep, -, hresponses, hended⟩ := step_of_ended h
    obtain ⟨u, hrun, hrest⟩ := ih hended
    exact ⟨u, (run_succ_of_next hstep).trans hrun, hrest.trans hresponses⟩

/-! ### The run up to its end -/

/-- Of at most n steps from s, the run up to its end takes k and stops in t: in the first state in which it has ended,
or because the steps are used up. -/
structure StopsAfter (n k : Nat) (s t : State) : Prop where
  le : k ≤ n
  run : run k s = .next t
  untilEnd : runUntilEnd n s = .next t
  notEndedBefore : ∀ j < k, ∃ u, Machine.run j s = .next u ∧ ¬ Ended u
  stops : Ended t ∨ k = n

theorem StopsAfter.of_ended (n : Nat) {s : State} (h : Ended s) : StopsAfter n 0 s s :=
  ⟨n.zero_le, rfl, runUntilEnd_of_ended n h, fun _ hj => absurd hj (Nat.not_lt_zero _), .inl h⟩

theorem StopsAfter.of_zero (s : State) : StopsAfter 0 0 s s :=
  ⟨le_rfl, rfl, rfl, fun _ hj => absurd hj (Nat.not_lt_zero _), .inr rfl⟩

/-- A step from a state in which the run has not ended comes before the others. -/
theorem StopsAfter.of_step {n k : Nat} {s u t : State} (hs : ¬ Ended s) (hstep : step s = .next u)
    (h : StopsAfter n k u t) : StopsAfter (n + 1) (k + 1) s t where
  le := Nat.succ_le_succ h.le
  run := (run_succ_of_next hstep).trans h.run
  untilEnd := (runUntilEnd_of_next hs hstep).trans h.untilEnd
  notEndedBefore
    | 0, _ => ⟨s, rfl, hs⟩
    | j + 1, hj => by
      rw [run_succ_of_next hstep]
      exact h.notEndedBefore j (Nat.lt_of_succ_lt_succ hj)
  stops := h.stops.imp_right (congrArg (· + 1))

/-- Where n steps go through, the run up to its end stops after some of them, and the others deliver nothing. -/
theorem exists_stopsAfter_of_run {n : Nat} {s v : State} (h : run n s = .next v) :
    ∃ k t, StopsAfter n k s t ∧ v.responses = t.responses := by
  induction n generalizing s with
  | zero =>
    cases h
    exact ⟨0, v, .of_zero v, rfl⟩
  | succ n ih =>
    by_cases hs : Ended s
    · obtain ⟨u, hrun, hresponses⟩ := run_of_ended (n + 1) hs
      cases hrun.symm.trans h
      exact ⟨0, s, .of_ended _ hs, hresponses⟩
    · obtain ⟨u, hu⟩ | ⟨k, hk⟩ := step_next_or_violation s
      · obtain ⟨k, t, hstops, hresponses⟩ := ih ((run_succ_of_next hu).symm.trans h)
        exact ⟨k + 1, t, hstops.of_step hs hu, hresponses⟩
      · exact nomatch (run_succ_of_fault hk).symm.trans h

/-- A fault comes before the end of a run: after it there is none. -/
theorem runUntilEnd_of_run_fault {n : Nat} {s : State} {f : Fault} (h : run n s = .fault f) :
    runUntilEnd n s = .fault f := by
  induction n generalizing s with
  | zero => cases h
  | succ n ih =>
    have hs : ¬ Ended s := by
      intro hs
      obtain ⟨u, hrun, -⟩ := run_of_ended (n + 1) hs
      exact nomatch hrun.symm.trans h
    obtain ⟨u, hu⟩ | ⟨k, hk⟩ := step_next_or_violation s
    · rw [runUntilEnd_of_next hs hu]
      exact ih ((run_succ_of_next hu).symm.trans h)
    · rw [runUntilEnd_of_fault hs hk]
      exact (run_succ_of_fault hk).symm.trans h

/-! ### What is observed -/

theorem observedRun_of_ended {s t : State} (h : runToEnd s = .next t) (ht : Ended t) :
    observedRun s = some (observation t) := by
  rw [observedRun, h]
  exact if_pos ht

theorem observedRun_of_not_ended {s t : State} (h : runToEnd s = .next t) (ht : ¬ Ended t) :
    observedRun s = none := by
  rw [observedRun, h]
  exact if_neg ht

theorem observedRun_of_fault {s : State} {f : Fault} (h : runToEnd s = .fault f) : observedRun s = none := by
  rw [observedRun, h]

/-- Settles O52: the run over all the inputs goes through or ends in a violation (`respectfulHostRunsThrough`), and the
run up to its end is the part of it before the first ended state (`exists_stopsAfter_of_run`,
`runUntilEnd_of_run_fault`). -/
theorem runIsObservedWhereItEnds : Obligations.RunIsObservedWhereItEnds := by
  refine ⟨fun s => and_congr_left' any_isCommand_eq_false_iff, fun s hrespects => ?_, fun s hbreach => ?_,
    fun s later idle hin hlater => ?_⟩
  · obtain ⟨v, hall, hnil, -⟩ := (respectfulHostRunsThrough s).1 hrespects
    obtain ⟨k, t, hstops, hresponses⟩ := exists_stopsAfter_of_run hall
    refine ⟨k, t, hstops.le, hstops.run, hstops.untilEnd, hstops.notEndedBefore, ?_, v, hall, hresponses⟩
    by_cases ht : Ended t
    · exact .inl ⟨ht, observedRun_of_ended hstops.untilEnd ht⟩
    · obtain rfl : k = s.inputs.length := hstops.stops.resolve_left ht
      obtain rfl : t = v := Host.Outcome.next.inj (hstops.run.symm.trans hall)
      have hwaiting : t.phase = .waitEntropy := by
        cases hphase : t.phase with
        | idle => exact absurd (ended_of_nil hnil hphase) ht
        | waitEntropy => rfl
      exact .inr ⟨hnil, hwaiting, observedRun_of_not_ended hstops.untilEnd ht⟩
  · obtain ⟨k, hfault⟩ := (respectfulHostRunsThrough s).2 hbreach
    have hend : runToEnd s = .fault (.protocolViolation k) := runUntilEnd_of_run_fault hfault
    exact ⟨observedRun_of_fault hend, k, hend⟩
  · have hended : Ended s := ⟨by rw [hin]; exact hlater, idle⟩
    exact observedRun_of_ended (runUntilEnd_of_ended _ hended) hended

/-! ### The reset input and the state after reset -/

/-- Inputs behind the one that breaks the host protocol do not count (`60_exceptions.md` R76). -/
theorem step_fault_append_inputs {s : State} {f : Fault} (h : step s = .fault f) (later : List Input) :
    step { s with inputs := s.inputs ++ later } = .fault f := by
  obtain ⟨w, p, rest, hin, hbreach⟩ := (faultsAreProtocolViolations s f).mp h
  exact (faultsAreProtocolViolations _ f).mpr ⟨w, p, rest ++ later, congrArg (· ++ later) hin, hbreach⟩

/-- Settles O1: the step of a reset input is `resetCore`, which leaves the core idle, and a fault stands whatever comes
behind it (`step_fault_append_inputs`). -/
theorem resetInputResetsCore : Obligations.ResetInputResetsCore := by
  refine ⟨fun s rest hin => ?_, fun s k later n hfault => ⟨fun hnil => ?_, ?_⟩⟩
  · exact ⟨resetCore { s with inputs := rest }, step_of_cons hin, rfl, rfl, rfl, rfl, readGenerator_of_unseeded rfl,
      rfl, rfl, fun a later hlate => unrequestedEntropyAnswerIsIgnored _ a later rfl hlate⟩
  · exact nomatch (step_of_nil hnil).symm.trans hfault
  · exact run_succ_of_fault (step_fault_append_inputs hfault _)

/-- Settles O2: the values of the state after reset, which is unseeded, so that the read of its generator faults. -/
theorem modelStartsUnseededAndIdle : Obligations.ModelStartsUnseededAndIdle :=
  ⟨rfl, rfl, rfl, rfl, readGenerator_of_unseeded rfl, rfl⟩

end Sys2Proof.Machine
end
